-- ==== Sys2Proof/Word.lean ====
section
/-! DEFINITION. Word.lean: the 32-bit register value and the byte, the two word types of the model (R10, R43). -/

namespace Sys2Proof

/-- A register value: 32 bits, bit 0 the least significant (R10). Every value is unsigned (R68). -/
abbrev Word := BitVec 32

/-- One byte of a descriptor laid out for presentation (R43). -/
abbrev Byte := BitVec 8

end Sys2Proof
end

