-- ==== Sys2Proof/Syntax.lean ====
section
/-! DEFINITION. Syntax.lean: the ten fields, the views, and the eight accesses that are this hardware's instructions
(R11, R50, R53). -/

namespace Sys2Proof

/-- The ten one-bit fields (R11). `eoiModeS` is also the field the source calls `EOImode` in Layout 3: the two names
are one cell (R12). A name that occurs in several layouts is one cell (R13). -/
inductive Field where
  | eoiModeNs
  | eoiModeS
  | irqBypDisGrp1
  | fiqBypDisGrp1
  | irqBypDisGrp0
  | fiqBypDisGrp0
  | cbpr
  | fiqEn
  | enableGrp1
  | enableGrp0
deriving DecidableEq, Repr

/-- The `VIEW` of an access (R50): the register absent, Layout 1 (Non-secure), Layout 2 (Secure), Layout 3 (single
Security state). -/
inductive View where
  | absent
  | ns
  | s
  | oneState
deriving DecidableEq, Repr

/-- The eight operations (R53), one constructor per row of spec/opcode_table.json. A read has no operand; a write
carries its 32-bit `DATA`. The value a read returns is `State.resp` of the next state. -/
inductive Instr where
  | rdAbsent
  | rdNs
  | rdS
  | rd1s
  | wrAbsent (data : Word)
  | wrNs (data : Word)
  | wrS (data : Word)
  | wr1s (data : Word)
deriving DecidableEq, Repr

end Sys2Proof
end

