-- ==== Sys2Proof/Config.lean ====
section
/-! DEFINITION. Config.lean: the static parameters of a model (00_scope section 4.1, R4) and the one free value.
A `Config` is plain data that `State` carries and no step changes, so a statement about every state is a statement about
every configuration; R4's constraints are in WellFormed.lean. -/

namespace Sys2Proof

/-- One value for each field (R11). -/
structure FieldTable (α : Type) where
  eoiModeNs : α
  eoiModeS : α
  irqBypDisGrp1 : α
  fiqBypDisGrp1 : α
  irqBypDisGrp0 : α
  fiqBypDisGrp0 : α
  cbpr : α
  fiqEn : α
  enableGrp1 : α
  enableGrp0 : α
deriving DecidableEq, Repr

/-- `LAYOUT` (R16 to R18, decision D3). The source fixes the order and the widths of the fields, so a layout is
determined by four numbers; `Sys2Proof.Machine.pos` computes each position from them. -/
structure Layout where
  /-- Layout 1: the bit of `EOImodeNS` (R16). -/
  nsEoiModeNs : Nat
  /-- Layout 1: the bit of `FIQBypDisGrp1`; `IRQBypDisGrp1` is the bit next above (R16). -/
  nsFiqBypDisGrp1 : Nat
  /-- Layout 2: the width `w` of the lower reserved run; the eight fields stand at bits `w+9` down to `w+2` (R17). -/
  sGap : Nat
  /-- Layout 3: the width of the lower reserved run; its seven fields stand at bits `w+8` down to `w+2` (R18). -/
  oneGap : Nat
deriving DecidableEq, Repr

/-- `RES0_MODE` (R30, decision D5). -/
inductive Res0Mode where
  | hardwired
  | stored
deriving DecidableEq, Repr

/-- `FIQ0_RAOWI_SOURCE`: which bit of `ICC_SRE_EL3` makes `FIQBypDisGrp0` RAO/WI (R19, R25, conflict C1, decision D8). -/
inductive Fiq0Source where
  | dib
  | dfb
deriving DecidableEq, Repr

/-- `SRE_ACCESS`: what an access made while `SRE = 1` does (R47, decision D17). -/
inductive SreAccess where
  | refuse
  | razWi
  | normal
deriving DecidableEq, Repr

/-- The static parameters, fixed for one model (00_scope section 4.1). -/
structure Config where
  /-- `HAS_LEGACY`: FEAT_GICv3_LEGACY is implemented, so the register is present (R2). -/
  hasLegacy : Bool
  /-- `TWO_SECURITY_STATES` (R4). -/
  twoSecurityStates : Bool
  /-- `BANKED`: Layouts 1 and 2 are in force, by the Security state of the access; else Layout 3 (R49, D2). -/
  banked : Bool
  /-- `SUPPORTS_LEGACY_INTERRUPTS` (R4, D23). -/
  supportsLegacyInterrupts : Bool
  eoiModeNsRaowi : Bool
  /-- One parameter for `EOImodeS` and `EOImode` (R12). -/
  eoiModeSRaowi : Bool
  irqBypDisGrp1Raowi : Bool
  fiqBypDisGrp1Raowi : Bool
  irqBypDisGrp0Raowi : Bool
  fiqBypDisGrp0Raowi : Bool
  fiqEnRaowi : Bool
  layout : Layout
  res0Mode : Res0Mode
  fiq0RaowiSource : Fiq0Source
  /-- `RESET_VALUE`: for each field a value, or none for UNKNOWN (R31, D9). -/
  resetValue : FieldTable (Option Bool)
  /-- `GICC_BASE` (R40, D10). -/
  giccBase : Nat
  sreAccess : SreAccess
  /-- `N_PE`: how many PEs, each with a register copy of its own (R87, D27). -/
  nPe : Nat
deriving DecidableEq, Repr

/-- The spec's default positions (R16 to R18). PRESUMED: the spec takes them from general knowledge (log 4). -/
def Layout.default : Layout where
  nsEoiModeNs := 9
  nsFiqBypDisGrp1 := 5
  sGap := 1
  oneGap := 1

/-- `RESET_VALUE = unknown`, the spec's default (R31). -/
def FieldTable.noResetValue : FieldTable (Option Bool) where
  eoiModeNs := none
  eoiModeS := none
  irqBypDisGrp1 := none
  fiqBypDisGrp1 := none
  irqBypDisGrp0 := none
  fiqBypDisGrp0 := none
  cbpr := none
  fiqEn := none
  enableGrp1 := none
  enableGrp0 := none

/-- Configuration C0 of 95_test_vectors.md with one PE, every defaulted parameter at the spec's default.
DESIGN CHOICE where the spec gives no default (log 3): `fiq0RaowiSource`, `giccBase`, `nPe` and the Boolean parameters. -/
def Config.default : Config where
  hasLegacy := true
  twoSecurityStates := true
  banked := true
  supportsLegacyInterrupts := true
  eoiModeNsRaowi := false
  eoiModeSRaowi := false
  irqBypDisGrp1Raowi := false
  fiqBypDisGrp1Raowi := false
  irqBypDisGrp0Raowi := false
  fiqBypDisGrp0Raowi := false
  fiqEnRaowi := false
  layout := Layout.default
  res0Mode := .hardwired
  fiq0RaowiSource := .dib
  resetValue := FieldTable.noResetValue
  giccBase := 0
  sreAccess := .refuse
  nPe := 1

/-- The free value behind `UNKNOWN` (00_scope section 5.3, R31, R93): what the `n`-th read draws. It has no body, so
nothing can be proved of its value; bit `p` of it is `draw()` for an UNKNOWN cell shown at bit `p` (log 5). -/
opaque Config.freeWord : Nat → Word

end Sys2Proof
end

