-- ==== Sys2Proof/WellFormed.lean ====
section
/-! DEFINITION. WellFormed.lean: the constraints on a configuration (R4, R42, R16 to R18), whose breach is rejected at
configuration time, and which of the eight operations can occur in a configuration (R53). -/

namespace Sys2Proof

/-- Layout 1 keeps the source's order and runs (R16): a reserved run at the top, one between `EOImodeNS` and the
bypass pair, one above `EnableGrp1` at bit 0. -/
def Layout.nsOk (l : Layout) : Bool :=
  decide (2 ≤ l.nsFiqBypDisGrp1) && decide (l.nsFiqBypDisGrp1 + 3 ≤ l.nsEoiModeNs) && decide (l.nsEoiModeNs ≤ 30)

/-- Layout 2 keeps the source's order and runs (R17): both reserved runs at least one bit wide. -/
def Layout.sOk (l : Layout) : Bool := decide (1 ≤ l.sGap) && decide (l.sGap ≤ 21)

/-- Layout 3 keeps the source's order and runs (R18): both reserved runs at least one bit wide. -/
def Layout.oneOk (l : Layout) : Bool := decide (1 ≤ l.oneGap) && decide (l.oneGap ≤ 22)

def Layout.wf (l : Layout) : Bool := l.nsOk && l.sOk && l.oneOk

/-- The four bypass parameters may be 1 only without legacy interrupts (R4). -/
def Config.bypassRaowiOk (c : Config) : Bool :=
  !c.supportsLegacyInterrupts ||
    !(c.irqBypDisGrp1Raowi || c.fiqBypDisGrp1Raowi || c.irqBypDisGrp0Raowi || c.fiqBypDisGrp0Raowi)

/-- `FIQEN_RAOWI` may be 1 only with two Security states (R4). -/
def Config.fiqEnRaowiOk (c : Config) : Bool := !c.fiqEnRaowi || c.twoSecurityStates

/-- `BANKED` may be 1 only with two Security states (R4, D2). -/
def Config.bankedOk (c : Config) : Bool := !c.banked || c.twoSecurityStates

/-- `GICC_BASE[1:0] = 0b00` (R42). -/
def Config.baseOk (c : Config) : Bool := decide (c.giccBase % 4 = 0)

/-- `N_PE` is a positive integer (00_scope section 4.1). -/
def Config.nPeOk (c : Config) : Bool := decide (0 < c.nPe)

/-- The configuration is one of the hardware; one that is not is rejected at configuration time (R4). -/
def Config.wf (c : Config) : Bool :=
  c.bypassRaowiOk && c.fiqEnRaowiOk && c.bankedOk && c.baseOk && c.nPeOk && c.layout.wf

/-- The rows of the opcode table that can occur in a configuration (R53). -/
def Instr.occursIn (c : Config) : Instr → Bool
  | .rdAbsent => !c.hasLegacy || decide (c.sreAccess = .razWi)
  | .wrAbsent _ => !c.hasLegacy || decide (c.sreAccess = .razWi)
  | .rdNs => c.hasLegacy && c.banked
  | .wrNs _ => c.hasLegacy && c.banked
  | .rdS => c.hasLegacy && c.banked
  | .wrS _ => c.hasLegacy && c.banked
  | .rd1s => c.hasLegacy && !c.banked
  | .wr1s _ => c.hasLegacy && !c.banked

end Sys2Proof
end

