-- ==== Sys2Proof/Decode.lean ====
section
/-! DEFINITION. Decode.lean: the access descriptor (R50), its decoder (R53, R54) and its encoder. A descriptor laid out
in bytes is `AD` in three bytes, low byte first, bits 23 to 19 zero, then for a write `DATA` in four bytes, low byte
first (log 11). -/

namespace Sys2Proof

/-- Why a descriptor is no access of R53. -/
inductive DecodeError where
  /-- Fewer bytes than `AD`, or than `AD` and `DATA` for a write. -/
  | truncated
  /-- A 1 above bit 18 of `AD`. -/
  | paddingNotZero
  /-- `OFFSET ≠ 0x0000`: another register of the frame, outside the spec (R54). -/
  | offsetNotZero
  /-- A write without `DATA`, or a read with it (R50). -/
  | dataMismatch
deriving DecidableEq, Repr

/-- An access descriptor `AD19` and, for a write, its `DATA` (R50). -/
structure Descriptor where
  ad : BitVec 19
  data : Option Word
deriving DecidableEq, Repr

/-- The code of a view in `AD[17:16]` (R50). -/
def viewCode : View → BitVec 2
  | .absent => 0b00#2
  | .ns => 0b01#2
  | .s => 0b10#2
  | .oneState => 0b11#2

/-- The view a code stands for (R50). -/
def viewOfCode (c : BitVec 2) : View :=
  if c = 0b00#2 then .absent else if c = 0b01#2 then .ns else if c = 0b10#2 then .s else .oneState

/-- `AD = {W, VIEW, OFFSET}` (R50). -/
def mkAd (write : Bool) (v : View) (offset : BitVec 16) : BitVec 19 :=
  (BitVec.ofBool write).setWidth 19 <<< 18 ||| (viewCode v).setWidth 19 <<< 16 ||| offset.setWidth 19

/-- The read of a view (R53). -/
def rdInstr : View → Instr
  | .absent => .rdAbsent
  | .ns => .rdNs
  | .s => .rdS
  | .oneState => .rd1s

/-- The write of a view (R53). -/
def wrInstr (data : Word) : View → Instr
  | .absent => .wrAbsent data
  | .ns => .wrNs data
  | .s => .wrS data
  | .oneState => .wr1s data

/-- The view an operation is made through (R53). -/
def Instr.view : Instr → View
  | .rdAbsent => .absent
  | .rdNs => .ns
  | .rdS => .s
  | .rd1s => .oneState
  | .wrAbsent _ => .absent
  | .wrNs _ => .ns
  | .wrS _ => .s
  | .wr1s _ => .oneState

/-- The `DATA` of a write; none for a read (R50). -/
def Instr.data : Instr → Option Word
  | .rdAbsent => none
  | .rdNs => none
  | .rdS => none
  | .rd1s => none
  | .wrAbsent d => some d
  | .wrNs d => some d
  | .wrS d => some d
  | .wr1s d => some d

/-- From a descriptor to the operation of R53: every bit of `AD` is decoded; an `OFFSET` other than 0 is no access to
this register (R54). -/
def decodeDescriptor (d : Descriptor) : Except DecodeError Instr :=
  if d.ad.extractLsb' 0 16 ≠ 0#16 then .error .offsetNotZero
  else match d.ad.getLsbD 18, d.data with
    | false, none => .ok (rdInstr (viewOfCode (d.ad.extractLsb' 16 2)))
    | true, some x => .ok (wrInstr x (viewOfCode (d.ad.extractLsb' 16 2)))
    | false, some _ => .error .dataMismatch
    | true, none => .error .dataMismatch

/-- Three bytes as a number, the first the lowest (R43). -/
def join3 (b0 b1 b2 : Byte) : BitVec 24 := b2.setWidth 24 <<< 16 ||| b1.setWidth 24 <<< 8 ||| b0.setWidth 24

/-- Four bytes as a 32-bit word, the first the lowest (R43). -/
def join4 (b0 b1 b2 b3 : Byte) : Word :=
  b3.setWidth 32 <<< 24 ||| b2.setWidth 32 <<< 16 ||| b1.setWidth 32 <<< 8 ||| b0.setWidth 32

/-- Decoding a list of bytes: the operation and the bytes left over, or the reason it is refused. -/
def decode : List Byte → Except DecodeError (Instr × List Byte)
  | b0 :: b1 :: b2 :: rest =>
    let w := join3 b0 b1 b2
    if w.extractLsb' 19 5 ≠ 0#5 then .error .paddingNotZero
    else if w.getLsbD 18 then
      match rest with
      | d0 :: d1 :: d2 :: d3 :: rest' =>
        (decodeDescriptor ⟨w.extractLsb' 0 19, some (join4 d0 d1 d2 d3)⟩).map (fun i => (i, rest'))
      | _ => .error .truncated
    else (decodeDescriptor ⟨w.extractLsb' 0 19, none⟩).map (fun i => (i, rest))
  | _ => .error .truncated

/-- The descriptor of an operation (R50, R53). -/
def Instr.descriptor (i : Instr) : Descriptor := ⟨mkAd i.data.isSome i.view 0#16, i.data⟩

/-- `AD` in three bytes, low byte first, padded with zeros above bit 18. -/
def adBytes (ad : BitVec 19) : List Byte :=
  [ad.extractLsb' 0 8, ad.extractLsb' 8 8, (ad.extractLsb' 16 3).setWidth 8]

/-- A 32-bit word in four bytes, low byte first (R43). -/
def wordBytes (w : Word) : List Byte := [w.extractLsb' 0 8, w.extractLsb' 8 8, w.extractLsb' 16 8, w.extractLsb' 24 8]

/-- A descriptor laid out in bytes. -/
def Descriptor.bytes (d : Descriptor) : List Byte :=
  adBytes d.ad ++ (match d.data with | none => [] | some x => wordBytes x)

/-- The bytes of an operation. -/
def encode (i : Instr) : List Byte := i.descriptor.bytes

/-- The `k` bytes of a number, low byte first. -/
def natBytes (w : Nat) : Nat → List Byte
  | 0 => []
  | k + 1 => BitVec.ofNat 8 w :: natBytes (w / 256) k

/-- The longest operation's bytes (three of `AD`, four of `DATA`) for the bits `w` of a table row, zero above `nbits`. -/
def tableBytes (nbits w : Nat) : List Byte := natBytes (w % 2 ^ nbits) 7

/-- What the decoder reads from an instruction whose bits are `w`, numbered as spec/opcode_table.json numbers them. -/
def decodeTableWord (nbits w : Nat) : Option Instr :=
  match decode (tableBytes nbits w) with
  | .ok (i, _) => some i
  | .error _ => none

end Sys2Proof
end

