-- ==== Sys2Proof/Machine/State.lean ====
section
/-! DEFINITION. Machine/State.lean: the state of the machine as plain data, the events that reach it, and the reasons a
step can stop (R10 to R15, R30, R31, R87; 00_scope sections 4.2 and 5.3). -/

namespace Sys2Proof.Machine

/-- A stored value, or `UNKNOWN`: a value the rules do not fix (00_scope section 5.3). -/
inductive Stored (α : Type) where
  | known (a : α)
  | unknown
deriving DecidableEq, Repr

/-- The ten one-bit cells of one register copy (R11). -/
abbrev Cells := FieldTable (Stored Bool)

/-- The inputs of 00_scope section 4.2: not state of the register, not written by any access (R5), supplied by the
environment's steps (R93, R94). `NS` comes with each access. No relation among the inputs is assumed (R5, D22). -/
structure Inputs where
  /-- "System register access is enabled", no level named (R47). -/
  sre : Bool
  /-- "System register access is enabled for EL3" (R19). -/
  sreEl3 : Bool
  /-- "System register access is enabled for EL1" (R76). -/
  sreEl1 : Bool
  /-- `ICC_SRE_EL3.DIB` (R19). -/
  dib : Bool
  /-- `ICC_SRE_EL3.DFB` (R19). -/
  dfb : Bool
  /-- "the signaling of IRQs by the CPU interface is disabled" (R74, D28). -/
  irqSignallingDisabled : Bool
  /-- "the signaling of FIQs by the CPU interface is disabled" (R75, D28). -/
  fiqSignallingDisabled : Bool
deriving DecidableEq, Repr

/-- The names of the inputs, for the environment's step (R93, R94). -/
inductive Input where
  | sre
  | sreEl3
  | sreEl1
  | dib
  | dfb
  | irqSignallingDisabled
  | fiqSignallingDisabled
deriving DecidableEq, Repr

/-- The register copy of one PE, and the inputs it sees (R87). -/
structure CpuIface where
  cells : Cells
  /-- The stored reserved cells of the Non-secure view, one word: a write through a view assigns them all (R30, log 14).
  Always 0 with `RES0_MODE = hardwired`. -/
  resNs : Stored Word
  /-- The stored reserved cells of the Secure view (R30). -/
  resS : Stored Word
  /-- The stored reserved cells of the single-Security-state view (R30). -/
  resOne : Stored Word
  inputs : Inputs
deriving DecidableEq, Repr

/-- The direction of a bus access, and the value a write supplies (R51). -/
inductive BusOp where
  | read
  | write (data : Word)
deriving DecidableEq, Repr

/-- A PE's bus access: direction, address, size in bytes, and Security attribute `NS` (R51). An address is a number:
the spec gives no address width (log 13). -/
structure BusAccess where
  op : BusOp
  addr : Nat
  size : Nat
  ns : Bool
deriving DecidableEq, Repr

/-- One step's cause (60_exceptions section 1). -/
inductive Action where
  /-- A bus access, from which R51 makes a descriptor. -/
  | bus (a : BusAccess)
  /-- A descriptor, laid out in bytes, presented to the decoder (R50, R53, R54). -/
  | present (bytes : List Byte)
  /-- The reset event (R90). -/
  | reset
  /-- The environment sets an input (R93, R94). -/
  | setInput (i : Input) (b : Bool)
  /-- `ICC_CTLR_EL3.CBPR_EL1NS` is written (R94). -/
  | writeCbprEl1ns (b : Bool)
deriving DecidableEq, Repr

/-- An action and the PE whose register copy it reaches (R87). -/
structure Event where
  pe : Nat
  act : Action
deriving DecidableEq, Repr

/-- The state of the machine. `cfg` is the configuration, which no step changes (log 3). `cpus` is everything the spec
gives the hardware, one register copy and its inputs for each PE (R87). The other four fields are the model's own. -/
structure State where
  cfg : Config
  cpus : List CpuIface
  /-- The PE whose event is being served (log 9). -/
  pe : Nat
  /-- The events to come, in the one total order of R45 (log 1). -/
  queue : List Event
  /-- The 32-bit value the latest step returned to its PE, if that step was a read (log 10). -/
  resp : Option Word
  /-- How many values `Config.freeWord` has supplied (log 5). -/
  draws : Nat
deriving DecidableEq, Repr

/-- A fault. There is none: "No access to `GICC_CTLR` raises an exception, an abort or a fault" (R82, 93 section 2), so
the type has no constructor, and that no step faults holds by its type (log 24). -/
inductive Fault where
deriving DecidableEq, Repr

/-- The model declines to give an event a meaning (R82: a refusal is not the hardware trapping). -/
inductive Refusal where
  /-- Raised by an arm of `exec` that has no meaning yet; none is left. Safe. -/
  | notModelled (mnemonic : String)
  /-- Raised by view selection for a bus access that is not 4 bytes wide and 4-byte aligned (R41, R42, R51). Safe. -/
  | widthOrAlignment
  /-- Raised by view selection for another address, and by the decoder for `OFFSET ≠ 0`: another register of the frame,
  outside the spec (R40, R51, R54). Safe. -/
  | otherOffset
  /-- Raised by view selection for an access made while `SRE = 1` with `SRE_ACCESS = refuse` (R47, R51). Safe. -/
  | sreEnabled
  /-- Raised by the check of a presented descriptor whose view R51 cannot have made (R53). Safe. -/
  | viewNotProduced
  /-- Raised by the decoder for bytes that are no descriptor of R50. Safe. -/
  | badDescriptor (why : DecodeError)
  /-- Raised for an event of a PE that does not exist, and by a meaning served for one (R87, log 23). Safe. -/
  | noSuchPe
  /-- Given by the end-of-interrupt output for an access to `GICC_DIR` in EOI mode 0, which the source calls
  UNPREDICTABLE (R80, U8); no step gives it. Safe. -/
  | dirUnpredictable
  /-- Given by the end-of-interrupt output for a read of `GICC_EOIR` or `GICC_AEOIR`, or of `GICC_DIR` in EOI mode 1: R78
  and R79 speak of writes only (log 31); no step gives it. Safe. -/
  | endReadNotStated
deriving DecidableEq, Repr

/-- Every input 0. DESIGN CHOICE for `State.reset` (log 7): "their values after reset are the environment's" (R90). -/
def Inputs.low : Inputs where
  sre := false
  sreEl3 := false
  sreEl1 := false
  dib := false
  dfb := false
  irqSignallingDisabled := false
  fiqSignallingDisabled := false

/-- Every cell `UNKNOWN`, the spec's default reset value (R31). -/
def unknownCells : Cells where
  eoiModeNs := .unknown
  eoiModeS := .unknown
  irqBypDisGrp1 := .unknown
  fiqBypDisGrp1 := .unknown
  irqBypDisGrp0 := .unknown
  fiqBypDisGrp0 := .unknown
  cbpr := .unknown
  fiqEn := .unknown
  enableGrp1 := .unknown
  enableGrp0 := .unknown

/-- The machine right after reset, in the default configuration (R31, R90; logs 3 and 7): every cell UNKNOWN, reserved
bits 0, no event to come. -/
def State.reset : State where
  cfg := Config.default
  cpus := [{ cells := unknownCells, resNs := .known 0#32, resS := .known 0#32, resOne := .known 0#32, inputs := Inputs.low }]
  pe := 0
  queue := []
  resp := none
  draws := 0

end Sys2Proof.Machine
end

