-- ==== Sys2Proof/Machine/Flags.lean ====
section
/-! DEFINITION. Machine/Flags.lean: the one-bit conditions of R19. The hardware has no status flags and no condition codes
(R32); what the package calls flags are these: whether a field is RAO/WI at this moment, and its effective value. -/

namespace Sys2Proof

/-- A field's entry. -/
def FieldTable.get {α : Type} (t : FieldTable α) : Field → α
  | .eoiModeNs => t.eoiModeNs
  | .eoiModeS => t.eoiModeS
  | .irqBypDisGrp1 => t.irqBypDisGrp1
  | .fiqBypDisGrp1 => t.fiqBypDisGrp1
  | .irqBypDisGrp0 => t.irqBypDisGrp0
  | .fiqBypDisGrp0 => t.fiqBypDisGrp0
  | .cbpr => t.cbpr
  | .fiqEn => t.fiqEn
  | .enableGrp1 => t.enableGrp1
  | .enableGrp0 => t.enableGrp0

/-- The table of a rule that gives every field its entry at once (R45: all in one step). -/
def FieldTable.ofRule {α : Type} (f : Field → α) : FieldTable α where
  eoiModeNs := f .eoiModeNs
  eoiModeS := f .eoiModeS
  irqBypDisGrp1 := f .irqBypDisGrp1
  fiqBypDisGrp1 := f .fiqBypDisGrp1
  irqBypDisGrp0 := f .irqBypDisGrp0
  fiqBypDisGrp0 := f .fiqBypDisGrp0
  cbpr := f .cbpr
  fiqEn := f .fiqEn
  enableGrp1 := f .enableGrp1
  enableGrp0 := f .enableGrp0

/-- The ten fields (R11). -/
def allFields : List Field :=
  [.eoiModeNs, .eoiModeS, .irqBypDisGrp1, .fiqBypDisGrp1, .irqBypDisGrp0, .fiqBypDisGrp0, .cbpr, .fiqEn, .enableGrp1,
    .enableGrp0]

namespace Machine

/-- What a read of a stored value gives: the value, or for `UNKNOWN` what is drawn (00_scope section 5.3). -/
def Stored.get {α : Type} (x : Stored α) (drawn : α) : α :=
  match x with
  | .known a => a
  | .unknown => drawn

/-- Whether a reading of `b` is possible: `UNKNOWN` admits every value (00_scope section 5.3). -/
def Stored.allows {α : Type} [DecidableEq α] (x : Stored α) (b : α) : Bool :=
  match x with
  | .known a => decide (a = b)
  | .unknown => true

/-- A function of a stored value; of `UNKNOWN` it is `UNKNOWN`. -/
def Stored.map {α β : Type} (f : α → β) (x : Stored α) : Stored β :=
  match x with
  | .known a => .known (f a)
  | .unknown => .unknown

def Inputs.get (x : Inputs) : Input → Bool
  | .sre => x.sre
  | .sreEl3 => x.sreEl3
  | .sreEl1 => x.sreEl1
  | .dib => x.dib
  | .dfb => x.dfb
  | .irqSignallingDisabled => x.irqSignallingDisabled
  | .fiqSignallingDisabled => x.fiqSignallingDisabled

def Inputs.set (x : Inputs) (b : Bool) : Input → Inputs
  | .sre => { x with sre := b }
  | .sreEl3 => { x with sreEl3 := b }
  | .sreEl1 => { x with sreEl1 := b }
  | .dib => { x with dib := b }
  | .dfb => { x with dfb := b }
  | .irqSignallingDisabled => { x with irqSignallingDisabled := b }
  | .fiqSignallingDisabled => { x with fiqSignallingDisabled := b }

/-- The static part of R19: the implementation made the field RAO/WI. `CBPR`, `EnableGrp1`, `EnableGrp0` never are (R4). -/
def staticRaowi (c : Config) : Field → Bool
  | .eoiModeNs => c.eoiModeNsRaowi
  | .eoiModeS => c.eoiModeSRaowi
  | .irqBypDisGrp1 => c.irqBypDisGrp1Raowi
  | .fiqBypDisGrp1 => c.fiqBypDisGrp1Raowi
  | .irqBypDisGrp0 => c.irqBypDisGrp0Raowi
  | .fiqBypDisGrp0 => c.fiqBypDisGrp0Raowi
  | .cbpr => false
  | .fiqEn => c.fiqEnRaowi
  | .enableGrp1 => false
  | .enableGrp0 => false

/-- `Q` of R19: the input that `FIQ0_RAOWI_SOURCE` names (conflict C1). -/
def fiq0Source (c : Config) (x : Inputs) : Bool :=
  match c.fiq0RaowiSource with
  | .dib => x.dib
  | .dfb => x.dfb

/-- The run-time part of R19, for the four bypass fields. -/
def dynamicRaowi (c : Config) (x : Inputs) : Field → Bool
  | .eoiModeNs => false
  | .eoiModeS => false
  | .irqBypDisGrp1 => x.sreEl3 && x.dib
  | .fiqBypDisGrp1 => x.sreEl3 && x.dfb
  | .irqBypDisGrp0 => x.sreEl3 && x.dib
  | .fiqBypDisGrp0 => x.sreEl3 && fiq0Source c x
  | .cbpr => false
  | .fiqEn => false
  | .enableGrp1 => false
  | .enableGrp0 => false

/-- `raowi(F)`: the field is at this moment read-as-one, writes-ignored (R19). -/
def raowi (c : Config) (x : Inputs) (f : Field) : Bool := staticRaowi c f || dynamicRaowi c x f

/-- `eff(F)`: 1 while the field is RAO/WI, else its cell (R19). -/
def eff (c : Config) (u : CpuIface) (f : Field) : Stored Bool :=
  if raowi c u.inputs f then .known true else u.cells.get f

end Machine

end Sys2Proof
end

