-- ==== Sys2Proof/Machine/Operands.lean ====
section
/-! DEFINITION. Machine/Operands.lean: the 32-bit data word of an access through each view: where each field stands (R16 to
R18), how a read assembles the word and how a write splits it (R52), and the reserved bits (R30). -/

namespace Sys2Proof.Machine

/-- `pos(view, F)` (R16 to R18); none where the field is not in the view, and for the absent register. -/
def pos (l : Layout) : View → Field → Option Nat
  | .ns, .eoiModeNs => some l.nsEoiModeNs
  | .ns, .irqBypDisGrp1 => some (l.nsFiqBypDisGrp1 + 1)
  | .ns, .fiqBypDisGrp1 => some l.nsFiqBypDisGrp1
  | .ns, .enableGrp1 => some 0
  | .s, .eoiModeNs => some (l.sGap + 9)
  | .s, .eoiModeS => some (l.sGap + 8)
  | .s, .irqBypDisGrp1 => some (l.sGap + 7)
  | .s, .fiqBypDisGrp1 => some (l.sGap + 6)
  | .s, .irqBypDisGrp0 => some (l.sGap + 5)
  | .s, .fiqBypDisGrp0 => some (l.sGap + 4)
  | .s, .cbpr => some (l.sGap + 3)
  | .s, .fiqEn => some (l.sGap + 2)
  | .s, .enableGrp1 => some 1
  | .s, .enableGrp0 => some 0
  | .oneState, .eoiModeS => some (l.oneGap + 8)
  | .oneState, .irqBypDisGrp1 => some (l.oneGap + 7)
  | .oneState, .fiqBypDisGrp1 => some (l.oneGap + 6)
  | .oneState, .irqBypDisGrp0 => some (l.oneGap + 5)
  | .oneState, .fiqBypDisGrp0 => some (l.oneGap + 4)
  | .oneState, .cbpr => some (l.oneGap + 3)
  | .oneState, .fiqEn => some (l.oneGap + 2)
  | .oneState, .enableGrp1 => some 1
  | .oneState, .enableGrp0 => some 0
  | .ns, .eoiModeS => none
  | .ns, .irqBypDisGrp0 => none
  | .ns, .fiqBypDisGrp0 => none
  | .ns, .cbpr => none
  | .ns, .fiqEn => none
  | .ns, .enableGrp0 => none
  | .oneState, .eoiModeNs => none
  | .absent, _ => none

/-- One bit placed at a field's position, every other bit 0 (R52: `zext_1(b) << pos(view, F)`). -/
def place (l : Layout) (v : View) (b : Nat → Field → Bool) (f : Field) : Word :=
  match pos l v f with
  | some p => (BitVec.ofBool (b p f)).setWidth 32 <<< p
  | none => 0#32

/-- The OR over the fields of a view (R52). -/
def placeAll (l : Layout) (v : View) (b : Nat → Field → Bool) : Word :=
  allFields.foldr (fun f w => place l v b f ||| w) 0#32

/-- The defined bits of a view, those that are not RES0 (R18). -/
def mask (l : Layout) (v : View) : Word := placeAll l v (fun _ _ => true)

/-- The bits of a view whose field is RAO/WI at this moment (R19). -/
def raowiMask (c : Config) (x : Inputs) (v : View) : Word := placeAll c.layout v (fun _ f => raowi c x f)

/-- The stored reserved cells of a view (R30); the absent register has none (R66, D26). -/
def CpuIface.reserved (u : CpuIface) : View → Stored Word
  | .absent => .known 0#32
  | .ns => u.resNs
  | .s => u.resS
  | .oneState => u.resOne

/-- The reserved bits of a read: 0 with `RES0_MODE = hardwired`; with `stored` the view's reserved cells (R30). -/
def reservedBits (c : Config) (u : CpuIface) (drawn : Word) (v : View) : Word :=
  match c.res0Mode with
  | .hardwired => 0#32
  | .stored => (u.reserved v).get drawn &&& ~~~(mask c.layout v)

/-- `pack(view)` (R52): each field's effective value at its position, an UNKNOWN cell drawing the bit of `drawn` at that
position, and the reserved bits. -/
def pack (c : Config) (u : CpuIface) (drawn : Word) (v : View) : Word :=
  placeAll c.layout v (fun p f => (eff c u f).get (drawn.getLsbD p)) ||| reservedBits c u drawn v

/-- `unpack(view, DATA)` for one field (R52): its bit of `DATA`, or none where the view does not hold it. -/
def unpack (l : Layout) (v : View) (data : Word) (f : Field) : Option Bool := (pos l v f).map data.getLsbD

/-- What a write through a view leaves in a field's cell (R61, R63, R65): the written bit, unless the view lacks the
field or the field is RAO/WI. -/
def writtenCell (c : Config) (u : CpuIface) (v : View) (data : Word) (f : Field) : Stored Bool :=
  match unpack c.layout v data f with
  | some b => if raowi c u.inputs f then u.cells.get f else .known b
  | none => u.cells.get f

/-- The reserved cells after a write through a view: kept with `RES0_MODE = hardwired`; with `stored` the reserved bits
of `DATA` (R30). -/
def writtenReserved (c : Config) (old : Stored Word) (v : View) (data : Word) : Stored Word :=
  match c.res0Mode with
  | .hardwired => old
  | .stored => .known (data &&& ~~~(mask c.layout v))

/-- A write through a view, all its cells at once (R45, R52). -/
def CpuIface.write (c : Config) (u : CpuIface) (v : View) (data : Word) : CpuIface :=
  let u' := { u with cells := FieldTable.ofRule (writtenCell c u v data) }
  match v with
  | .absent => u'
  | .ns => { u' with resNs := writtenReserved c u.resNs .ns data }
  | .s => { u' with resS := writtenReserved c u.resS .s data }
  | .oneState => { u' with resOne := writtenReserved c u.resOne .oneState data }

end Sys2Proof.Machine
end

