-- ==== Sys2Proof/Machine/Ops.lean ====
section
/-! DEFINITION. Machine/Ops.lean: the named operations on the state: serving a PE's register copy, answering, retiring an
event, reading and writing through a view, the reset event (R31, R90) and the environment's steps (R93, R94).
No exception is ever taken and none returned from (R82, R84): this hardware has no such operation. -/

namespace Sys2Proof.Machine

/-- The register copy of the PE being served; none if there is no such PE (R87). -/
def State.current (s : State) : Option CpuIface := s.cpus[s.pe]?

/-- Replace the register copy of the PE being served. -/
def State.put (s : State) (u : CpuIface) : State := { s with cpus := s.cpus.set s.pe u }

/-- Set what the step returns to its PE: a value for a read, nothing else. -/
def State.answer (s : State) (r : Option Word) : State := { s with resp := r }

/-- Take one value from the free supply (00_scope section 5.3: a fresh draw at each read). -/
def State.spend (s : State) : State := { s with draws := s.draws + 1 }

/-- The event at the head of the order is done (R45). -/
def State.retire (s : State) : State := { s with queue := s.queue.tail }

/-- Serve a PE. -/
def State.turn (s : State) (p : Nat) : State := { s with pe := p }

/-- A read through a view (R60, R62, R64): the packed word is returned; no cell changes (R44). -/
def readView (v : View) (s : State) : Host.Outcome State Fault Refusal :=
  match s.current with
  | some u => .next ((s.answer (some (pack s.cfg u (Config.freeWord s.draws) v))).spend.retire)
  | none => .refused .noSuchPe

/-- A write through a view (R61, R63, R65), one step (R45). -/
def writeView (v : View) (data : Word) (s : State) : Host.Outcome State Fault Refusal :=
  match s.current with
  | some u => .next (((s.put (u.write s.cfg v data)).answer none).retire)
  | none => .refused .noSuchPe

/-- A read of the absent register returns 0 and changes nothing (R66). -/
def readAbsent (s : State) : Host.Outcome State Fault Refusal := .next ((s.answer (some 0#32)).retire)

/-- A write to the absent register is dropped (R67). -/
def writeAbsent (_data : Word) (s : State) : Host.Outcome State Fault Refusal := .next ((s.answer none).retire)

/-- The reset value of a cell (R31): 1 if the field is statically RAO/WI, else what `RESET_VALUE` gives, else UNKNOWN. -/
def resetCell (c : Config) (f : Field) : Stored Bool :=
  if staticRaowi c f then .known true
  else match c.resetValue.get f with
    | some b => .known b
    | none => .unknown

/-- The reset value of a view's reserved cells (R30, R31): 0 with `hardwired`, UNKNOWN with `stored`. -/
def resetReserved (c : Config) : Stored Word :=
  match c.res0Mode with
  | .hardwired => .known 0#32
  | .stored => .unknown

/-- The reset event on one register copy (R90): every cell, and the stored reserved cells; the inputs are kept. -/
def CpuIface.reset (c : Config) (u : CpuIface) : CpuIface where
  cells := FieldTable.ofRule (resetCell c)
  resNs := resetReserved c
  resS := resetReserved c
  resOne := resetReserved c
  inputs := u.inputs

/-- What an environment step leaves in a cell (R93): UNKNOWN if it ends the field's being RAO/WI; else the cell is kept. -/
def envCell (c : Config) (before after : Inputs) (cells : Cells) (f : Field) : Stored Bool :=
  if raowi c before f && !raowi c after f then .unknown else cells.get f

/-- The environment sets an input (R93, R94). -/
def CpuIface.setInput (c : Config) (u : CpuIface) (i : Input) (b : Bool) : CpuIface :=
  let after := u.inputs.set b i
  { u with cells := FieldTable.ofRule (envCell c u.inputs after u.cells), inputs := after }

/-- `ICC_CTLR_EL3.CBPR_EL1NS` is written: it and `CBPR` are one cell (R14, R94). -/
def CpuIface.writeCbprEl1ns (u : CpuIface) (b : Bool) : CpuIface :=
  { u with cells := { u.cells with cbpr := .known b } }

/-- A step that is no access: the copy of the PE being served changes, and nothing is returned. -/
def onCurrent (f : CpuIface → CpuIface) (s : State) : Host.Outcome State Fault Refusal :=
  match s.current with
  | some u => .next (((s.put (f u)).answer none).retire)
  | none => .refused .noSuchPe

/-- The reset event (R90). -/
def resetEvent (s : State) : Host.Outcome State Fault Refusal := onCurrent (CpuIface.reset s.cfg) s

/-- An environment step on an input (R93, R94). -/
def setInputEvent (i : Input) (b : Bool) (s : State) : Host.Outcome State Fault Refusal :=
  onCurrent (fun u => u.setInput s.cfg i b) s

/-- An environment step on the cell's other name (R94). -/
def writeCbprEl1nsEvent (b : Bool) (s : State) : Host.Outcome State Fault Refusal :=
  onCurrent (fun u => u.writeCbprEl1ns b) s

/-- The start of a run of a configuration: the state after one reset, with inputs the environment gives (R90). Every PE
starts with the same inputs: DESIGN CHOICE, since R90 leaves them to the environment (log 8). -/
def State.init (c : Config) (x : Inputs) : State where
  cfg := c
  cpus := List.replicate c.nPe
    (CpuIface.reset c { cells := unknownCells, resNs := .unknown, resS := .unknown, resOne := .unknown, inputs := x })
  pe := 0
  queue := []
  resp := none
  draws := 0

/-- Building a model: a configuration that breaks R4 is rejected at configuration time. The inputs are `State.init`'s. -/
def State.build (c : Config) (x : Inputs) : Option State := if c.wf then some (State.init c x) else none

end Sys2Proof.Machine
end

