-- ==== Sys2Proof/Machine/AbsentRegister.lean ====
section
/-! DEFINITION. Machine/AbsentRegister.lean: the accesses when the register is absent (43_access_absent_register). -/

namespace Sys2Proof.Machine

/-- `RD.ABSENT` (R66). -/
def execRdAbsent (s : State) : Host.Outcome State Fault Refusal := readAbsent s

/-- `WR.ABSENT` (R67). -/
def execWrAbsent (data : Word) (s : State) : Host.Outcome State Fault Refusal := writeAbsent data s

end Sys2Proof.Machine
end

