-- ==== Sys2Proof/Machine/NonsecureView.lean ====
section
/-! DEFINITION. Machine/NonsecureView.lean: the accesses through the Non-secure view, Layout 1 (40_access_nonsecure_view). -/

namespace Sys2Proof.Machine

/-- `RD.NS` (R60). -/
def execRdNs (s : State) : Host.Outcome State Fault Refusal := readView .ns s

/-- `WR.NS` (R61). -/
def execWrNs (data : Word) (s : State) : Host.Outcome State Fault Refusal := writeView .ns data s

end Sys2Proof.Machine
end

