-- ==== Sys2Proof/Machine/SecureView.lean ====
section
/-! DEFINITION. Machine/SecureView.lean: the accesses through the Secure view, Layout 2 (41_access_secure_view). -/

namespace Sys2Proof.Machine

/-- `RD.S` (R62). -/
def execRdS (s : State) : Host.Outcome State Fault Refusal := readView .s s

/-- `WR.S` (R63). -/
def execWrS (data : Word) (s : State) : Host.Outcome State Fault Refusal := writeView .s data s

end Sys2Proof.Machine
end

