-- ==== Sys2Proof/Machine/SingleStateView.lean ====
section
/-! DEFINITION. Machine/SingleStateView.lean: the accesses through the single-Security-state view, Layout 3
(42_access_single_state). -/

namespace Sys2Proof.Machine

/-- `RD.1S` (R64). -/
def execRd1s (s : State) : Host.Outcome State Fault Refusal := readView .oneState s

/-- `WR.1S` (R65). -/
def execWr1s (data : Word) (s : State) : Host.Outcome State Fault Refusal := writeView .oneState data s

end Sys2Proof.Machine
end

