-- ==== Sys2Proof/Machine/Dispatch.lean ====
section
/-! DEFINITION. Machine/Dispatch.lean: one arm per operation of R53. -/

namespace Sys2Proof.Machine

def exec (i : Instr) (s : State) : Host.Outcome State Fault Refusal :=
  match i with
  | .rdAbsent => Sys2Proof.Machine.execRdAbsent s
  | .rdNs => Sys2Proof.Machine.execRdNs s
  | .rdS => Sys2Proof.Machine.execRdS s
  | .rd1s => Sys2Proof.Machine.execRd1s s
  | .wrAbsent data => Sys2Proof.Machine.execWrAbsent data s
  | .wrNs data => Sys2Proof.Machine.execWrNs data s
  | .wrS data => Sys2Proof.Machine.execWrS data s
  | .wr1s data => Sys2Proof.Machine.execWr1s data s

end Sys2Proof.Machine
end

