-- ==== Sys2Proof/Machine/Fetch.lean ====
section
/-! DEFINITION. Machine/Fetch.lean: from an access event to the operation it is: view selection of a bus access (R51), the
check of a presented descriptor (R53), and how a descriptor is placed for the next step. -/

namespace Sys2Proof.Machine

/-- `VIEW` of R51; `NS` is looked at only when `BANKED = 1`. -/
def selectView (c : Config) (x : Inputs) (ns : Bool) : View :=
  if c.hasLegacy = false then .absent
  else if x.sre = true ∧ c.sreAccess = .razWi then .absent
  else if c.banked = false then .oneState
  else if ns = true then .ns
  else .s

def BusOp.isWrite : BusOp → Bool
  | .read => false
  | .write _ => true

def BusOp.data : BusOp → Option Word
  | .read => none
  | .write d => some d

/-- R51: the first line that applies wins, top to bottom. -/
def selectAccess (c : Config) (x : Inputs) (a : BusAccess) : Except Refusal Descriptor :=
  if a.size ≠ 4 ∨ a.addr % 4 ≠ 0 then .error .widthOrAlignment
  else if a.addr ≠ c.giccBase + 0x0000 then .error .otherOffset
  else if x.sre = true ∧ c.sreAccess = .refuse then .error .sreEnabled
  else .ok ⟨mkAd a.op.isWrite (selectView c x a.ns) 0x0000#16, a.op.data⟩

/-- The refusal that stands for a decoder's reason: an `OFFSET` other than 0 is another register (R54). -/
def refusalOf : DecodeError → Refusal
  | .truncated => .badDescriptor .truncated
  | .paddingNotZero => .badDescriptor .paddingNotZero
  | .offsetNotZero => .otherOffset
  | .dataMismatch => .badDescriptor .dataMismatch

/-- The operation of a bus access under a configuration and inputs (R51, R53). -/
def busInstrUnder (c : Config) (x : Inputs) (a : BusAccess) : Except Refusal Instr :=
  match selectAccess c x a with
  | .error r => .error r
  | .ok d =>
    match decodeDescriptor d with
    | .ok i => .ok i
    | .error e => .error (refusalOf e)

/-- The operation of a bus access of the PE being served. -/
def busInstr (a : BusAccess) (s : State) : Except Refusal Instr :=
  match s.current with
  | none => .error .noSuchPe
  | some u => busInstrUnder s.cfg u.inputs a

/-- R51 can make this view here: a presented descriptor stands for an access that R51 let through (R53, log 12). -/
def producible (c : Config) (x : Inputs) (v : View) : Bool :=
  decide (v = selectView c x false) || decide (v = selectView c x true)

/-- Whether a presented operation may run under a configuration and inputs (R53): an access made while `SRE = 1` is
refused with `SRE_ACCESS = refuse` (R47), and a view that R51 cannot have made is refused. -/
def checkPresented (c : Config) (x : Inputs) (i : Instr) : Except Refusal Instr :=
  if x.sre = true ∧ c.sreAccess = .refuse then .error .sreEnabled
  else if producible c x i.view = true then .ok i
  else .error .viewNotProduced

/-- The operation of a descriptor presented for the PE being served (R53, R54). Bytes after the descriptor are no part of
it and are dropped: DESIGN CHOICE, since the spec gives a descriptor no byte layout (log 11). -/
def presentedInstr (bytes : List Byte) (s : State) : Except Refusal Instr :=
  match s.current with
  | none => .error .noSuchPe
  | some u =>
    match decode bytes with
    | .error e => .error (refusalOf e)
    | .ok (i, _) => checkPresented s.cfg u.inputs i

/-- A configuration in which R51 makes the view (R53): the given one but for the parameters that select the view. -/
def Config.producing (c : Config) : View → Config
  | .absent => { c with hasLegacy := false }
  | .ns => { c with hasLegacy := true, twoSecurityStates := true, banked := true }
  | .s => { c with hasLegacy := true, twoSecurityStates := true, banked := true }
  | .oneState => { c with hasLegacy := true, banked := false }

/-- Place a descriptor as the next event, of PE 0, in a configuration that makes its view, with `SRE = 0` (log 2). -/
def placeBytes (bytes : List Byte) (s : State) : State :=
  let c := match decode bytes with
    | .ok (i, _) => Config.producing s.cfg i.view
    | .error _ => s.cfg
  { s with
    cfg := c
    cpus := s.cpus.modify 0 (fun u => { u with inputs := { u.inputs with sre := false } })
    queue := { pe := 0, act := .present bytes } :: s.queue }

end Sys2Proof.Machine
end

