-- ==== Sys2Proof/Machine/Step.lean ====
section
/-! DEFINITION. Machine/Step.lean: one step (R45): the event at the head of the total order is served. -/

namespace Sys2Proof.Machine

/-- Run the operation an access event was found to be. -/
def runAccess (r : Except Refusal Instr) (s : State) : Host.Outcome State Fault Refusal :=
  match r with
  | .ok i => exec i s
  | .error e => .refused e

/-- The five kinds of event, for the PE being served (60_exceptions section 1). -/
def serve (a : Action) (s : State) : Host.Outcome State Fault Refusal :=
  match a with
  | .bus b => runAccess (busInstr b s) s
  | .present bytes => runAccess (presentedInstr bytes s) s
  | .reset => resetEvent s
  | .setInput i b => setInputEvent i b s
  | .writeCbprEl1ns b => writeCbprEl1nsEvent b s

/-- One step. With no event to come nothing happens: nothing advances of itself (R33, log 22). An event of a PE that
does not exist is refused (log 23). -/
def step (s : State) : Host.Outcome State Fault Refusal :=
  match s.queue with
  | [] => .next s
  | e :: _ => if e.pe < s.cpus.length then serve e.act (s.turn e.pe) else .refused .noSuchPe

/-- Place an instruction where the next step takes its event from (log 2). -/
def State.withFetchWord (s : State) (nbits w : Nat) : State := placeBytes (tableBytes nbits w) s

end Sys2Proof.Machine
end

