-- ==== Sys2Proof/Machine/Outputs.lean ====
section
/-! DEFINITION. Machine/Outputs.lean: what the fields control (60_exceptions sections 2 to 4), as functions of the state that
act on `eff(F)` and hold no state (R15). An output is none where the spec states none: no such PE, no register (R67), or
`SRE = 1` (R47). An output of an UNKNOWN cell is UNKNOWN: any value may be observed, afresh each time (00_scope 5.3).
When the rest of the GIC acts on a changed output is not given (R95), so nothing here says it (log 19). -/

namespace Sys2Proof.Machine

inductive Group where
  | grp0
  | grp1
deriving DecidableEq, Repr

inductive Signal where
  | irq
  | fiq
deriving DecidableEq, Repr

/-- The effective value an output of a PE's CPU interface acts on. -/
def effOutput (s : State) (p : Nat) (f : Field) : Option (Stored Bool) :=
  match s.cpus[p]? with
  | some u => if s.cfg.hasLegacy && !u.inputs.sre then some (eff s.cfg u f) else none
  | none => none

/-- `Grp0SignallingEnabled`, `Grp1SignallingEnabled` (R71, R72). -/
def signallingEnabled (s : State) (p : Nat) : Group → Option (Stored Bool)
  | .grp0 => effOutput s p .enableGrp0
  | .grp1 => effOutput s p .enableGrp1

/-- `Grp0Signal`, `Grp1Signal` (R73). -/
def groupSignal (s : State) (p : Nat) : Group → Option (Stored Signal)
  | .grp0 => (effOutput s p .fiqEn).map (Stored.map (fun b => if b then .fiq else .irq))
  | .grp1 => (effOutput s p .enableGrp1).map (fun _ => .known .irq)

/-- Whether the CPU interface may signal an interrupt of a group on a signal (R71 to R73): a relation, since whether it
does depends on interrupt state the source does not give. `some false` is the fact that it signals none; none, where
the spec states no output (no such PE, no register, `SRE = 1`), says nothing (log 19). -/
def maySignal (s : State) (p : Nat) (g : Group) (sig : Signal) : Option Bool :=
  match signallingEnabled s p g, groupSignal s p g with
  | some e, some x => some (e.allows true && x.allows sig)
  | _, _ => none

/-- What is stated of a bypass signal for a group (R74, R75). "Is signalled" is only MAY: the field "partly" controls it. -/
inductive Bypass where
  | notStated
  | notSignalled
  | mayBeSignalled
deriving DecidableEq, Repr

def bypassField : Signal → Group → Field
  | .irq, .grp0 => .irqBypDisGrp0
  | .irq, .grp1 => .irqBypDisGrp1
  | .fiq, .grp0 => .fiqBypDisGrp0
  | .fiq, .grp1 => .fiqBypDisGrp1

/-- "When the signaling of IRQs (FIQs) by the CPU interface is disabled": an input (D28). -/
def signallingDisabled (x : Inputs) : Signal → Bool
  | .irq => x.irqSignallingDisabled
  | .fiq => x.fiqSignallingDisabled

/-- The bypass signals (R74, R75): stated only while the CPU interface's signalling is disabled and `SRE_EL1 = 0`; while
`SRE_EL1 = 1` the field is ignored (R76). -/
def bypass (s : State) (p : Nat) (sig : Signal) (g : Group) : Bypass :=
  match s.cpus[p]? with
  | none => .notStated
  | some u =>
    match effOutput s p (bypassField sig g) with
    | none => .notStated
    | some e =>
      if signallingDisabled u.inputs sig && !u.inputs.sreEl1 then
        (if e.allows false then .mayBeSignalled else .notSignalled)
      else .notStated

/-- The EOI mode field that governs an access to `GICC_EOIR`, `GICC_AEOIR` or `GICC_DIR` (R77). -/
def eoiModeField (c : Config) (ns : Bool) : Field :=
  if c.banked = false then .eoiModeS else if ns = true then .eoiModeNs else .eoiModeS

/-- `EOIModeFor(access)` (R77). -/
def eoiModeFor (s : State) (p : Nat) (ns : Bool) : Option (Stored Bool) := effOutput s p (eoiModeField s.cfg ns)

/-- The three registers of R77, named only: they are no part of this hardware. -/
inductive EndRegister where
  | eoir
  | aeoir
  | dir
deriving DecidableEq, Repr

/-- The functionality an end-of-interrupt write is given (R78, R79). -/
structure EndEffect where
  priorityDrop : Bool
  deactivation : Bool
deriving DecidableEq, Repr

/-- What an access to an end-of-interrupt register provides in an EOI mode (R78, R79 for a write). An access of either
direction to `GICC_DIR` in mode 0 is UNPREDICTABLE and given no meaning (R80, U8). Of every other read the source says
nothing, and the model gives it no meaning: DESIGN CHOICE (log 31). -/
def endEffect (mode : Bool) (r : EndRegister) (isWrite : Bool) : Except Refusal EndEffect :=
  match mode, r, isWrite with
  | false, .dir, _ => .error .dirUnpredictable
  | false, .eoir, true => .ok { priorityDrop := true, deactivation := true }
  | false, .aeoir, true => .ok { priorityDrop := true, deactivation := true }
  | true, .eoir, true => .ok { priorityDrop := true, deactivation := false }
  | true, .aeoir, true => .ok { priorityDrop := true, deactivation := false }
  | true, .dir, true => .ok { priorityDrop := false, deactivation := true }
  | false, .eoir, false => .error .endReadNotStated
  | false, .aeoir, false => .error .endReadNotStated
  | true, .eoir, false => .error .endReadNotStated
  | true, .aeoir, false => .error .endReadNotStated
  | true, .dir, false => .error .endReadNotStated

/-- The answers possible for an access to an end-of-interrupt register: one for each EOI mode that can be read. -/
def endAnswers (s : State) (p : Nat) (ns : Bool) (r : EndRegister) (isWrite : Bool) : List (Except Refusal EndEffect) :=
  match eoiModeFor s p ns with
  | some m => ([false, true].filter m.allows).map (fun b => endEffect b r isWrite)
  | none => []

/-- The two binary point registers of R81, named only. -/
inductive BinaryPoint where
  | bpr
  | abpr
deriving DecidableEq, Repr

/-- `BPRForGroup0`, `BPRForGroup1` (R81). -/
def binaryPointFor (s : State) (p : Nat) : Group → Option (Stored BinaryPoint)
  | .grp0 => (effOutput s p .cbpr).map (fun _ => .known .bpr)
  | .grp1 => (effOutput s p .cbpr).map (Stored.map (fun b => if b then .bpr else .abpr))

/-- What a read of `ICC_CTLR_EL3.CBPR_EL1NS` finds: the cell of `CBPR`, one piece of state with it (R14, R94). -/
def cbprEl1ns (s : State) (p : Nat) : Option (Stored Bool) :=
  match s.cpus[p]? with
  | some u => if s.cfg.hasLegacy then some u.cells.cbpr else none
  | none => none

end Sys2Proof.Machine
end

