-- ==== Sys2Proof/Machine/Program.lean ====
section
/-! DEFINITION. Machine/Program.lean: the test programs of R56: their lines, the two pseudo-operations, and running a program
of one PE, between whose lines other agents' events may fall (R46). The variables `rN` are the program's, not the
machine's state (R32), and the PE computes on them (R68). How a line reaches the register is log 30. -/

namespace Sys2Proof.Machine

/-- The variables `rN` of a program's text (R32, R56). -/
abbrev Vars := Nat → Word

/-- A variable is given a value. -/
def setVar (x : Vars) (n : Nat) (w : Word) : Vars := fun k => if k = n then w else x k

/-- What a write line writes (R56). -/
inductive Source where
  | imm (w : Word)
  | var (n : Nat)
  | varOr (n : Nat) (w : Word)
  | varAnd (n : Nat) (w : Word)
deriving DecidableEq, Repr

/-- The word of a source, computed by the PE (R68). -/
def Source.word (x : Vars) : Source → Word
  | .imm w => w
  | .var n => x n
  | .varOr n w => x n ||| w
  | .varAnd n w => x n &&& w

/-- A line of a program, one access, reset or environment step each (R56). -/
inductive Line where
  | rd (v : View) (n : Nat)
  | wr (v : View) (d : Source)
  | reset
  | env (i : Input) (b : Bool)
deriving DecidableEq, Repr

/-- `setb.<view> #mask`, with `rT` the variable `n`: two lines (R56). -/
def setb (v : View) (n : Nat) (mask : Word) : List Line := [.rd v n, .wr v (.varOr n mask)]

/-- `clrb.<view> #mask`, with `rT` the variable `n`: two lines (R56). -/
def clrb (v : View) (n : Nat) (mask : Word) : List Line := [.rd v n, .wr v (.varAnd n (~~~mask))]

/-- The operation a direction and a view name (R53). -/
def opInstr (v : View) : BusOp → Instr
  | .read => rdInstr v
  | .write d => wrInstr d v

/-- An access line. A line of a view the configuration has is the PE's bus access in that view's Security state, from which
R51 makes the descriptor (V46: `rd.s` is refused, or decoded as `rd.absent`, while `SRE = 1`); a line of `absent`, or of
a view the configuration has not, is its own descriptor, presented (V23, V47). -/
def lineAccess (c : Config) (v : View) (op : BusOp) : Action :=
  if v ≠ .absent ∧ (opInstr v op).occursIn c = true then
    .bus { op := op, addr := c.giccBase, size := 4, ns := decide (v = .ns) }
  else .present (encode (opInstr v op))

/-- What a line does, in a configuration and with its program's variables. -/
def Line.action (c : Config) (x : Vars) : Line → Action
  | .rd v _ => lineAccess c v .read
  | .wr v d => lineAccess c v (.write (d.word x))
  | .reset => .reset
  | .env i b => .setInput i b

/-- The variables after a line that ended in a state: `rN` holds the value a read returned. -/
def Line.vars (x : Vars) (r : Option Word) : Line → Vars
  | .rd _ n => match r with
    | some w => setVar x n w
    | none => x
  | .wr _ _ => x
  | .reset => x
  | .env _ _ => x

/-- One step of a run: a line of the program, or another agent's event that falls between lines (R46). -/
inductive Item where
  | line (l : Line)
  | other (e : Event)
deriving DecidableEq, Repr

/-- The event of an item of PE `p`'s program. -/
def Item.event (c : Config) (p : Nat) (x : Vars) : Item → Event
  | .line l => ⟨p, l.action c x⟩
  | .other e => e

def Item.vars (x : Vars) (r : Option Word) : Item → Vars
  | .line l => l.vars x r
  | .other _ => x

/-- One step that serves an event now, ahead of those to come. -/
def State.serveNow (s : State) (e : Event) : Host.Outcome State Fault Refusal := step { s with queue := e :: s.queue }

/-- A run of PE `p`'s program, one step for each item. -/
def runProgram (p : Nat) : List Item → Vars → State → Host.Outcome (State × Vars) Fault Refusal
  | [], x, s => .next (s, x)
  | i :: rest, x, s =>
    match s.serveNow (i.event s.cfg p x) with
    | .next t => runProgram p rest (i.vars x t.resp) t
    | .fault r => .fault r
    | .refused r => .refused r

/-- A program with nothing between its lines. -/
def runLines (p : Nat) (ls : List Line) (x : Vars) (s : State) : Host.Outcome (State × Vars) Fault Refusal :=
  runProgram p (ls.map .line) x s

end Sys2Proof.Machine
end

