-- ==== Sys2Proof/Safety.lean ====
section
/-! DEFINITION. Safety.lean: the terms claims are stated in: the invariant of the machine, which fields a Non-secure access
reaches, and when two states look the same to Non-secure accesses (R4, R19, R30, R49, R70, R87). -/

namespace Sys2Proof.Machine

/-- A statically RAO/WI cell holds 1 "from reset on" (R31, V29). -/
abbrev CpuIface.RaowiCellsHoldOne (c : Config) (u : CpuIface) : Prop :=
  ∀ f ∈ allFields, staticRaowi c f = true → u.cells.get f = .known true

/-- The reserved cells of a view hold nothing with `hardwired`, and with `stored` never a bit of a field (R30). -/
def reservedOk (c : Config) (v : View) (x : Stored Word) : Bool :=
  match c.res0Mode, x with
  | .hardwired, .known w => decide (w = 0#32)
  | .hardwired, .unknown => false
  | .stored, .known w => decide (w &&& mask c.layout v = 0#32)
  | .stored, .unknown => true

abbrev CpuIface.ReservedWf (c : Config) (u : CpuIface) : Prop :=
  ∀ v ∈ [View.ns, View.s, View.oneState], reservedOk c v (u.reserved v) = true

/-- The invariant: a configuration of the hardware (R4), one register copy for each PE (R87), the served PE one of them,
and every copy's cells as above. -/
abbrev State.Inv (s : State) : Prop :=
  s.cfg.wf = true ∧ s.cpus.length = s.cfg.nPe ∧ s.pe < s.cfg.nPe ∧
    ∀ u ∈ s.cpus, u.RaowiCellsHoldOne s.cfg ∧ u.ReservedWf s.cfg

/-- The six fields no Non-secure access reaches when `BANKED = 1` (R49, R70). -/
def secureOnly : List Field := [.eoiModeS, .irqBypDisGrp0, .fiqBypDisGrp0, .cbpr, .fiqEn, .enableGrp0]

/-- The four fields both views hold (R13, R16, R17). -/
def sharedFields : List Field := [.eoiModeNs, .irqBypDisGrp1, .fiqBypDisGrp1, .enableGrp1]

/-- Two register copies look the same to Non-secure accesses: the four shared cells, the Non-secure view's reserved cells
and the inputs agree; the six Secure-only cells and the other views' reserved cells may differ. -/
def CpuIface.NsEquiv (u w : CpuIface) : Prop :=
  (∀ f ∈ sharedFields, u.cells.get f = w.cells.get f) ∧ u.resNs = w.resNs ∧ u.inputs = w.inputs

/-- Two states look the same to Non-secure accesses: all but the copies' Secure-only parts agree. -/
def State.NsEquiv (s t : State) : Prop :=
  s.cfg = t.cfg ∧ s.pe = t.pe ∧ s.queue = t.queue ∧ s.resp = t.resp ∧ s.draws = t.draws ∧
    s.cpus.length = t.cpus.length ∧
    ∀ (p : Nat) (u w : CpuIface), s.cpus[p]? = some u → t.cpus[p]? = some w → u.NsEquiv w

/-- The operation that an event turns out to be for the PE being served: an access's operation or the reason it is
refused; none for a reset or an environment step, which are no accesses (R53, R90, R93, R94). -/
def accessInstr (s : State) : Action → Option (Except Refusal Instr)
  | .bus b => some (busInstr b s)
  | .present bytes => some (presentedInstr bytes s)
  | .reset => none
  | .setInput _ _ => none
  | .writeCbprEl1ns _ => none

/-- The same state under the other reading of the source's sentence about `FIQBypDisGrp0` (conflict C1, decision D8). -/
def State.withFiqSource (s : State) (q : Fiq0Source) : State := { s with cfg := { s.cfg with fiq0RaowiSource := q } }

/-- `k` steps, ending early where a step does not give a next state. -/
def runSteps : Nat → State → Host.Outcome State Fault Refusal
  | 0, s => .next s
  | k + 1, s =>
    match step s with
    | .next t => runSteps k t
    | .fault r => .fault r
    | .refused r => .refused r

/-- Every field of a view reads a value that is not UNKNOWN. -/
def CpuIface.KnownIn (c : Config) (u : CpuIface) (v : View) : Prop :=
  ∀ f : Field, (pos c.layout v f).isSome = true → ∃ b, eff c u f = .known b

end Sys2Proof.Machine
end

