-- ==== Sys2Proof/Certificates/Slice0/Obligations.lean ====
section
/-! DEFINITION. Certificates/Slice0/Obligations.lean: the statements for the provers. Each docstring names the rule it
formalises, or says what it rests on. "log <n>" is notes/assumptions/<n>.md. -/

open Sys2Proof Sys2Proof.Machine

/-! ### Descriptors (30_encoding) -/

/-- The eight descriptors of R53, written out, decode to the eight operations. -/
def Obligations.DescriptorWordsDecode : Prop :=
  decodeDescriptor ⟨0x00000#19, none⟩ = .ok .rdAbsent ∧
  decodeDescriptor ⟨0x10000#19, none⟩ = .ok .rdNs ∧
  decodeDescriptor ⟨0x20000#19, none⟩ = .ok .rdS ∧
  decodeDescriptor ⟨0x30000#19, none⟩ = .ok .rd1s ∧
  decodeDescriptor ⟨0x40000#19, some 0xFFFFFFFF#32⟩ = .ok (.wrAbsent 0xFFFFFFFF#32) ∧
  decodeDescriptor ⟨0x50000#19, some 0x00000201#32⟩ = .ok (.wrNs 0x00000201#32) ∧
  decodeDescriptor ⟨0x60000#19, some 0x00000003#32⟩ = .ok (.wrS 0x00000003#32) ∧
  decodeDescriptor ⟨0x70000#19, some 0x0000020B#32⟩ = .ok (.wr1s 0x0000020B#32)

/-- Decode and encode agree on every operation, every `DATA`, whatever follows (R50, R53; byte layout: log 11). -/
def Obligations.DecodeOfEncodeIsTheOperation : Prop :=
  ∀ (i : Instr) (rest : List Byte), decode (encode i ++ rest) = .ok (i, rest)

/-- Each descriptor has one meaning: bytes that decode to an operation are its encoding, so every bit of `AD` is decoded
and every bit of `DATA` is carried (R50, R53, R54). -/
def Obligations.DecodedBytesAreTheEncoding : Prop :=
  ∀ (bs : List Byte) (i : Instr) (rest : List Byte), decode bs = .ok (i, rest) → bs = encode i ++ rest

/-- R53 whole: the eight operations with their matches and nothing else; which of them can occur in a configuration; a
presented descriptor of any other view is refused. Which refusal that is rests on R47 (`sreEnabled` where every access is
refused) and on the model's reading of R53 (`viewNotProduced`; log 12). -/
def Obligations.EightOperationsAndWhereTheyOccur : Prop :=
  (∀ d : Word,
    Instr.rdAbsent.descriptor = ⟨0x00000#19, none⟩ ∧ Instr.rdNs.descriptor = ⟨0x10000#19, none⟩ ∧
    Instr.rdS.descriptor = ⟨0x20000#19, none⟩ ∧ Instr.rd1s.descriptor = ⟨0x30000#19, none⟩ ∧
    (Instr.wrAbsent d).descriptor = ⟨0x40000#19, some d⟩ ∧ (Instr.wrNs d).descriptor = ⟨0x50000#19, some d⟩ ∧
    (Instr.wrS d).descriptor = ⟨0x60000#19, some d⟩ ∧ (Instr.wr1s d).descriptor = ⟨0x70000#19, some d⟩) ∧
  (∀ (d : Descriptor) (i : Instr), decodeDescriptor d = .ok i ↔ d = i.descriptor) ∧
  (∀ (c : Config) (x : Inputs) (ns : Bool),
    (c.hasLegacy = false → selectView c x ns = .absent) ∧
    (c.hasLegacy = true → c.banked = false →
      selectView c x ns = .oneState ∨ (c.sreAccess = .razWi ∧ selectView c x ns = .absent)) ∧
    (c.hasLegacy = true → c.banked = true →
      selectView c x ns = .ns ∨ selectView c x ns = .s ∨ (c.sreAccess = .razWi ∧ selectView c x ns = .absent))) ∧
  (∀ (s : State) (p : Nat) (u : CpuIface) (bytes tail : List Byte) (i : Instr) (rest : List Event),
    s.queue = ⟨p, .present bytes⟩ :: rest → s.cpus[p]? = some u → decode bytes = .ok (i, tail) →
    i.occursIn s.cfg = false →
    step s = .refused (if u.inputs.sre = true ∧ s.cfg.sreAccess = .refuse then .sreEnabled else .viewNotProduced))

/-- A view is made by R51 exactly where R53 lets its rows occur: whatever a step runs for an access can occur in the
configuration (R51, R53). -/
def Obligations.OnlyOccurringOperationsRun : Prop :=
  ∀ (s : State) (a : Action) (i : Instr), accessInstr s a = some (.ok i) → i.occursIn s.cfg = true

/-! ### A step (R45, R51, R87) -/

/-- A step runs the decoded instruction, and the whole outcome of a presented descriptor: bytes that do not decode are
refused, an `OFFSET` other than 0 as another register (R54); an access while `SRE = 1` with `SRE_ACCESS = refuse` is
refused (R47); a view R51 cannot make under the PE's inputs is refused (log 12: the model's reading of R53); else the
step is `exec i` for the event's PE. `exec` itself retires the event. Bytes after the descriptor are dropped (log 11: the
model's choice). -/
def Obligations.StepRunsThePresentedOperation : Prop :=
  ∀ (s : State) (p : Nat) (u : CpuIface) (bytes : List Byte) (rest : List Event),
    s.queue = ⟨p, .present bytes⟩ :: rest → s.cpus[p]? = some u →
    step s =
      match decode bytes with
      | .error .offsetNotZero => .refused .otherOffset
      | .error .truncated => .refused (.badDescriptor .truncated)
      | .error .paddingNotZero => .refused (.badDescriptor .paddingNotZero)
      | .error .dataMismatch => .refused (.badDescriptor .dataMismatch)
      | .ok (i, _) =>
        if u.inputs.sre = true ∧ s.cfg.sreAccess = .refuse then .refused .sreEnabled
        else if
          (if s.cfg.hasLegacy = false then i.view = .absent
           else if u.inputs.sre = true ∧ s.cfg.sreAccess = .razWi then i.view = .absent
           else if s.cfg.banked = false then i.view = .oneState
           else i.view = .ns ∨ i.view = .s) then exec i (s.turn p)
        else .refused .viewNotProduced

/-- R54's sixth form: a presented descriptor whose `OFFSET` is not 0 is no access to this register. -/
def Obligations.DescriptorOfAnotherOffsetIsRefused : Prop :=
  ∀ (s : State) (p : Nat) (u : CpuIface) (d : Descriptor) (rest : List Event),
    s.queue = ⟨p, .present d.bytes⟩ :: rest → s.cpus[p]? = some u → d.data.isSome = d.ad.getLsbD 18 →
    d.ad.extractLsb' 0 16 ≠ 0x0000#16 → step s = .refused .otherOffset

/-- R51 whole: a bus access is refused, or is the read or write of the view selected; the first line that applies wins. -/
def Obligations.BusAccessFollowsViewSelection : Prop :=
  ∀ (s : State) (p : Nat) (u : CpuIface) (a : BusAccess) (rest : List Event),
    s.queue = ⟨p, .bus a⟩ :: rest → s.cpus[p]? = some u →
    step s =
      if a.size ≠ 4 ∨ a.addr % 4 ≠ 0 then .refused .widthOrAlignment
      else if a.addr ≠ s.cfg.giccBase then .refused .otherOffset
      else if u.inputs.sre = true ∧ s.cfg.sreAccess = .refuse then .refused .sreEnabled
      else
        let v : View :=
          if s.cfg.hasLegacy = false then .absent
          else if u.inputs.sre = true ∧ s.cfg.sreAccess = .razWi then .absent
          else if s.cfg.banked = false then .oneState
          else if a.ns = true then .ns
          else .s
        exec (match a.op with | .read => rdInstr v | .write d => wrInstr d v) (s.turn p)

/-- R42: with `GICC_BASE` aligned, an access of any width inside the word but not at its address is refused. -/
def Obligations.AccessInsideTheWordRefused : Prop :=
  ∀ (s : State) (p : Nat) (u : CpuIface) (a : BusAccess) (rest : List Event) (k : Nat),
    s.cfg.wf = true → s.queue = ⟨p, .bus a⟩ :: rest → s.cpus[p]? = some u → 1 ≤ k → k ≤ 3 →
    a.addr = s.cfg.giccBase + k → step s = .refused .widthOrAlignment

/-- Nothing advances of itself, and an event of a PE that does not exist is refused (logs 22 and 23: the model's choices). -/
def Obligations.IdleStepAndMissingPe : Prop :=
  (∀ s : State, s.queue = [] → step s = .next s) ∧
  (∀ (s : State) (e : Event) (rest : List Event), s.queue = e :: rest → s.cpus.length ≤ e.pe →
    step s = .refused .noSuchPe)

/-- Every operation completes in one step wherever the served PE has a register copy, and retires its event (R96, R82). -/
def Obligations.EveryOperationCompletesInOneStep : Prop :=
  ∀ (i : Instr) (s : State) (u : CpuIface), s.current = some u →
    ∃ t, exec i s = .next t ∧ t.queue = s.queue.tail ∧ t.cfg = s.cfg ∧ t.pe = s.pe ∧ t.cpus.length = s.cpus.length

/-- R87: no rule couples two copies: a step changes at most the copy of the event's own PE. That a reset and an access
reach one copy only rests on the spec's decision D27 and on the model's reading of it (logs 6 and 9), and that an input is
set for one PE, so that every other PE's inputs are unchanged, is the model's own choice (log 8). -/
def Obligations.StepChangesOnlyItsOwnPe : Prop :=
  ∀ (s t : State) (e : Event) (rest : List Event), s.queue = e :: rest → step s = .next t →
    t.cfg = s.cfg ∧ t.queue = rest ∧ t.pe = e.pe ∧ t.cpus.length = s.cpus.length ∧
    ∀ q, q ≠ e.pe → t.cpus[q]? = s.cpus[q]?

/-! ### The reads -/

/-- R60: the value `RD.NS` returns, bit by bit, and that nothing else changes. The model's own fields: the value is
answered, one draw is spent, the event is retired. With the default layout the positions are 9, 6, 5 and 0. -/
def Obligations.ReadNsReturnsLayout1 : Prop :=
  Instr.rdNs.descriptor = ⟨0x10000#19, none⟩ ∧
  ∀ (s : State) (u : CpuIface), s.cfg.layout.wf = true → s.current = some u →
    ∃ v : Word,
      exec .rdNs s = .next { s with resp := some v, draws := s.draws + 1, queue := s.queue.tail } ∧
      ∀ k, k < 32 → v.getLsbD k =
        let d := (Config.freeWord s.draws).getLsbD k
        if k = s.cfg.layout.nsEoiModeNs then (eff s.cfg u .eoiModeNs).get d
        else if k = s.cfg.layout.nsFiqBypDisGrp1 + 1 then (eff s.cfg u .irqBypDisGrp1).get d
        else if k = s.cfg.layout.nsFiqBypDisGrp1 then (eff s.cfg u .fiqBypDisGrp1).get d
        else if k = 0 then (eff s.cfg u .enableGrp1).get d
        else match s.cfg.res0Mode with
          | .hardwired => false
          | .stored => (u.resNs.get (Config.freeWord s.draws)).getLsbD k

/-- R62: the value `RD.S` returns, bit by bit, and that nothing else changes. With the default layout (`sGap = 1`) the
positions are 10 down to 3, 1 and 0. -/
def Obligations.ReadSReturnsLayout2 : Prop :=
  Instr.rdS.descriptor = ⟨0x20000#19, none⟩ ∧
  ∀ (s : State) (u : CpuIface), s.cfg.layout.wf = true → s.current = some u →
    ∃ v : Word,
      exec .rdS s = .next { s with resp := some v, draws := s.draws + 1, queue := s.queue.tail } ∧
      ∀ k, k < 32 → v.getLsbD k =
        let d := (Config.freeWord s.draws).getLsbD k
        if k = s.cfg.layout.sGap + 9 then (eff s.cfg u .eoiModeNs).get d
        else if k = s.cfg.layout.sGap + 8 then (eff s.cfg u .eoiModeS).get d
        else if k = s.cfg.layout.sGap + 7 then (eff s.cfg u .irqBypDisGrp1).get d
        else if k = s.cfg.layout.sGap + 6 then (eff s.cfg u .fiqBypDisGrp1).get d
        else if k = s.cfg.layout.sGap + 5 then (eff s.cfg u .irqBypDisGrp0).get d
        else if k = s.cfg.layout.sGap + 4 then (eff s.cfg u .fiqBypDisGrp0).get d
        else if k = s.cfg.layout.sGap + 3 then (eff s.cfg u .cbpr).get d
        else if k = s.cfg.layout.sGap + 2 then (eff s.cfg u .fiqEn).get d
        else if k = 1 then (eff s.cfg u .enableGrp1).get d
        else if k = 0 then (eff s.cfg u .enableGrp0).get d
        else match s.cfg.res0Mode with
          | .hardwired => false
          | .stored => (u.resS.get (Config.freeWord s.draws)).getLsbD k

/-- R64: the value `RD.1S` returns, bit by bit, and that nothing else changes. With the default layout (`oneGap = 1`) the
positions are 9 down to 3, 1 and 0. -/
def Obligations.Read1sReturnsLayout3 : Prop :=
  Instr.rd1s.descriptor = ⟨0x30000#19, none⟩ ∧
  ∀ (s : State) (u : CpuIface), s.cfg.layout.wf = true → s.current = some u →
    ∃ v : Word,
      exec .rd1s s = .next { s with resp := some v, draws := s.draws + 1, queue := s.queue.tail } ∧
      ∀ k, k < 32 → v.getLsbD k =
        let d := (Config.freeWord s.draws).getLsbD k
        if k = s.cfg.layout.oneGap + 8 then (eff s.cfg u .eoiModeS).get d
        else if k = s.cfg.layout.oneGap + 7 then (eff s.cfg u .irqBypDisGrp1).get d
        else if k = s.cfg.layout.oneGap + 6 then (eff s.cfg u .fiqBypDisGrp1).get d
        else if k = s.cfg.layout.oneGap + 5 then (eff s.cfg u .irqBypDisGrp0).get d
        else if k = s.cfg.layout.oneGap + 4 then (eff s.cfg u .fiqBypDisGrp0).get d
        else if k = s.cfg.layout.oneGap + 3 then (eff s.cfg u .cbpr).get d
        else if k = s.cfg.layout.oneGap + 2 then (eff s.cfg u .fiqEn).get d
        else if k = 1 then (eff s.cfg u .enableGrp1).get d
        else if k = 0 then (eff s.cfg u .enableGrp0).get d
        else match s.cfg.res0Mode with
          | .hardwired => false
          | .stored => (u.resOne.get (Config.freeWord s.draws)).getLsbD k

/-- R66: `RD.ABSENT` returns 0 and leaves everything else, in every state. -/
def Obligations.ReadAbsentReturnsZero : Prop :=
  Instr.rdAbsent.descriptor = ⟨0x00000#19, none⟩ ∧
  ∀ s : State, exec .rdAbsent s = .next { s with resp := some 0x00000000#32, queue := s.queue.tail }

/-! ### The writes -/

/-- R61: what `WR.NS` leaves in every cell of the copy, in its reserved cells, and that nothing else changes. -/
def Obligations.WriteNsReachesLayout1 : Prop :=
  ∀ (s : State) (u : CpuIface) (data : Word), s.current = some u →
    (Instr.wrNs data).descriptor = ⟨0x50000#19, some data⟩ ∧
    ∃ w : CpuIface,
      exec (.wrNs data) s = .next { s with cpus := s.cpus.set s.pe w, resp := none, queue := s.queue.tail } ∧
      w.cells =
        { u.cells with
          eoiModeNs := if raowi s.cfg u.inputs .eoiModeNs then u.cells.eoiModeNs
            else .known (data.getLsbD s.cfg.layout.nsEoiModeNs)
          irqBypDisGrp1 := if raowi s.cfg u.inputs .irqBypDisGrp1 then u.cells.irqBypDisGrp1
            else .known (data.getLsbD (s.cfg.layout.nsFiqBypDisGrp1 + 1))
          fiqBypDisGrp1 := if raowi s.cfg u.inputs .fiqBypDisGrp1 then u.cells.fiqBypDisGrp1
            else .known (data.getLsbD s.cfg.layout.nsFiqBypDisGrp1)
          enableGrp1 := .known (data.getLsbD 0) } ∧
      w.resS = u.resS ∧ w.resOne = u.resOne ∧ w.inputs = u.inputs ∧
      (s.cfg.res0Mode = .hardwired → w.resNs = u.resNs) ∧
      (s.cfg.res0Mode = .stored → ∃ r : Word, w.resNs = .known r ∧ ∀ k, k < 32 → r.getLsbD k =
        (data.getLsbD k && decide (k ≠ s.cfg.layout.nsEoiModeNs ∧ k ≠ s.cfg.layout.nsFiqBypDisGrp1 + 1 ∧
          k ≠ s.cfg.layout.nsFiqBypDisGrp1 ∧ k ≠ 0)))

/-- R63: what `WR.S` leaves in every cell of the copy, in its reserved cells, and that nothing else changes. -/
def Obligations.WriteSReachesLayout2 : Prop :=
  ∀ (s : State) (u : CpuIface) (data : Word), s.current = some u →
    (Instr.wrS data).descriptor = ⟨0x60000#19, some data⟩ ∧
    ∃ w : CpuIface,
      exec (.wrS data) s = .next { s with cpus := s.cpus.set s.pe w, resp := none, queue := s.queue.tail } ∧
      w.cells =
        { eoiModeNs := if raowi s.cfg u.inputs .eoiModeNs then u.cells.eoiModeNs
            else .known (data.getLsbD (s.cfg.layout.sGap + 9))
          eoiModeS := if raowi s.cfg u.inputs .eoiModeS then u.cells.eoiModeS
            else .known (data.getLsbD (s.cfg.layout.sGap + 8))
          irqBypDisGrp1 := if raowi s.cfg u.inputs .irqBypDisGrp1 then u.cells.irqBypDisGrp1
            else .known (data.getLsbD (s.cfg.layout.sGap + 7))
          fiqBypDisGrp1 := if raowi s.cfg u.inputs .fiqBypDisGrp1 then u.cells.fiqBypDisGrp1
            else .known (data.getLsbD (s.cfg.layout.sGap + 6))
          irqBypDisGrp0 := if raowi s.cfg u.inputs .irqBypDisGrp0 then u.cells.irqBypDisGrp0
            else .known (data.getLsbD (s.cfg.layout.sGap + 5))
          fiqBypDisGrp0 := if raowi s.cfg u.inputs .fiqBypDisGrp0 then u.cells.fiqBypDisGrp0
            else .known (data.getLsbD (s.cfg.layout.sGap + 4))
          cbpr := .known (data.getLsbD (s.cfg.layout.sGap + 3))
          fiqEn := if raowi s.cfg u.inputs .fiqEn then u.cells.fiqEn
            else .known (data.getLsbD (s.cfg.layout.sGap + 2))
          enableGrp1 := .known (data.getLsbD 1)
          enableGrp0 := .known (data.getLsbD 0) } ∧
      w.resNs = u.resNs ∧ w.resOne = u.resOne ∧ w.inputs = u.inputs ∧
      (s.cfg.res0Mode = .hardwired → w.resS = u.resS) ∧
      (s.cfg.res0Mode = .stored → ∃ r : Word, w.resS = .known r ∧ ∀ k, k < 32 → r.getLsbD k =
        (data.getLsbD k && decide (1 < k ∧ (k < s.cfg.layout.sGap + 2 ∨ s.cfg.layout.sGap + 9 < k))))

/-- R65: what `WR.1S` leaves in every cell of the copy (`EOImodeNS` is not reached), in its reserved cells, and that
nothing else changes. -/
def Obligations.Write1sReachesLayout3 : Prop :=
  ∀ (s : State) (u : CpuIface) (data : Word), s.current = some u →
    (Instr.wr1s data).descriptor = ⟨0x70000#19, some data⟩ ∧
    ∃ w : CpuIface,
      exec (.wr1s data) s = .next { s with cpus := s.cpus.set s.pe w, resp := none, queue := s.queue.tail } ∧
      w.cells =
        { eoiModeNs := u.cells.eoiModeNs
          eoiModeS := if raowi s.cfg u.inputs .eoiModeS then u.cells.eoiModeS
            else .known (data.getLsbD (s.cfg.layout.oneGap + 8))
          irqBypDisGrp1 := if raowi s.cfg u.inputs .irqBypDisGrp1 then u.cells.irqBypDisGrp1
            else .known (data.getLsbD (s.cfg.layout.oneGap + 7))
          fiqBypDisGrp1 := if raowi s.cfg u.inputs .fiqBypDisGrp1 then u.cells.fiqBypDisGrp1
            else .known (data.getLsbD (s.cfg.layout.oneGap + 6))
          irqBypDisGrp0 := if raowi s.cfg u.inputs .irqBypDisGrp0 then u.cells.irqBypDisGrp0
            else .known (data.getLsbD (s.cfg.layout.oneGap + 5))
          fiqBypDisGrp0 := if raowi s.cfg u.inputs .fiqBypDisGrp0 then u.cells.fiqBypDisGrp0
            else .known (data.getLsbD (s.cfg.layout.oneGap + 4))
          cbpr := .known (data.getLsbD (s.cfg.layout.oneGap + 3))
          fiqEn := if raowi s.cfg u.inputs .fiqEn then u.cells.fiqEn
            else .known (data.getLsbD (s.cfg.layout.oneGap + 2))
          enableGrp1 := .known (data.getLsbD 1)
          enableGrp0 := .known (data.getLsbD 0) } ∧
      w.resNs = u.resNs ∧ w.resS = u.resS ∧ w.inputs = u.inputs ∧
      (s.cfg.res0Mode = .hardwired → w.resOne = u.resOne) ∧
      (s.cfg.res0Mode = .stored → ∃ r : Word, w.resOne = .known r ∧ ∀ k, k < 32 → r.getLsbD k =
        (data.getLsbD k && decide (1 < k ∧ (k < s.cfg.layout.oneGap + 2 ∨ s.cfg.layout.oneGap + 8 < k))))

/-- R67: `WR.ABSENT` drops its `DATA` and leaves everything else, in every state; with no register no output exists
(corner case (b)). -/
def Obligations.WriteAbsentIsDropped : Prop :=
  ∀ (s : State) (data : Word),
    (Instr.wrAbsent data).descriptor = ⟨0x40000#19, some data⟩ ∧
    exec (.wrAbsent data) s = .next { s with resp := none, queue := s.queue.tail } ∧
    (s.cfg.hasLegacy = false → ∀ p, (∀ f, effOutput s p f = none) ∧
      (∀ g, signallingEnabled s p g = none ∧ groupSignal s p g = none ∧ binaryPointFor s p g = none) ∧
      (∀ g sig, maySignal s p g sig = none ∧ bypass s p sig g = .notStated) ∧
      ∀ ns, eoiModeFor s p ns = none ∧ ∀ r isWrite, endAnswers s p ns r isWrite = [])

/-- R2: with the register absent (`HAS_LEGACY = 0`), or while `SRE = 1` under `SRE_ACCESS = raz_wi`, a bus access that is
answered reads 0 or is dropped, no copy changes, and with no register no output exists (R67 corner case (b)). That the
other name of `CBPR` finds nothing with `HAS_LEGACY = 0` is the model's own choice (log 18). -/
def Obligations.AbsentRegisterIsRes0 : Prop :=
  (∀ (s : State) (p : Nat) (u : CpuIface) (a : BusAccess) (rest : List Event),
    s.queue = ⟨p, .bus a⟩ :: rest → s.cpus[p]? = some u → a.size = 4 → a.addr = s.cfg.giccBase → s.cfg.wf = true →
    (s.cfg.hasLegacy = false ∧ ¬ (u.inputs.sre = true ∧ s.cfg.sreAccess = .refuse)) ∨
      (u.inputs.sre = true ∧ s.cfg.sreAccess = .razWi) →
    step s = .next { s with
      pe := p, queue := rest, resp := (match a.op with | .read => some 0x00000000#32 | .write _ => none) }) ∧
  (∀ (s : State) (p : Nat) (f : Field), s.cfg.hasLegacy = false → effOutput s p f = none ∧ cbprEl1ns s p = none)

/-! ### RAO/WI, sharing, read-back -/

/-- R19 (the spec's decisions D6 and D8): the table of `raowi`, `eff`; that a read returns `eff(F)` at the field's
position while a write leaves the cell of a RAO/WI field; and that every output acts on `eff(F)` alone. -/
def Obligations.RaowiFieldReadsOneAndKeepsItsCell : Prop :=
  (∀ (c : Config) (x : Inputs),
    let q := match c.fiq0RaowiSource with | .dib => x.dib | .dfb => x.dfb
    raowi c x .eoiModeNs = c.eoiModeNsRaowi ∧ raowi c x .eoiModeS = c.eoiModeSRaowi ∧
    raowi c x .irqBypDisGrp1 = (c.irqBypDisGrp1Raowi || (x.sreEl3 && x.dib)) ∧
    raowi c x .fiqBypDisGrp1 = (c.fiqBypDisGrp1Raowi || (x.sreEl3 && x.dfb)) ∧
    raowi c x .irqBypDisGrp0 = (c.irqBypDisGrp0Raowi || (x.sreEl3 && x.dib)) ∧
    raowi c x .fiqBypDisGrp0 = (c.fiqBypDisGrp0Raowi || (x.sreEl3 && q)) ∧
    raowi c x .fiqEn = c.fiqEnRaowi ∧ raowi c x .cbpr = false ∧ raowi c x .enableGrp1 = false ∧
    raowi c x .enableGrp0 = false) ∧
  (∀ (c : Config) (u : CpuIface) (f : Field),
    eff c u f = if raowi c u.inputs f then .known true else u.cells.get f) ∧
  (∀ (s : State) (u : CpuIface) (v : View) (f : Field) (p : Nat), s.cfg.layout.wf = true → s.current = some u →
    pos s.cfg.layout v f = some p →
    (∃ t r, exec (rdInstr v) s = .next t ∧ t.resp = some r ∧
      r.getLsbD p = (eff s.cfg u f).get ((Config.freeWord s.draws).getLsbD p)) ∧
    ∀ d : Word, ∃ t w, exec (wrInstr d v) s = .next t ∧ t.current = some w ∧
      (raowi s.cfg u.inputs f = true → w.cells.get f = u.cells.get f)) ∧
  (∀ (s t : State) (p : Nat) (u w : CpuIface), s.cpus[p]? = some u → t.cpus[p]? = some w → s.cfg = t.cfg →
    u.inputs = w.inputs → (∀ f : Field, eff s.cfg u f = eff s.cfg w f) →
    (∀ g, signallingEnabled s p g = signallingEnabled t p g ∧ groupSignal s p g = groupSignal t p g ∧
      binaryPointFor s p g = binaryPointFor t p g) ∧
    (∀ g sig, maySignal s p g sig = maySignal t p g sig ∧ bypass s p sig g = bypass t p sig g) ∧
    ∀ ns r isWrite, endAnswers s p ns r isWrite = endAnswers t p ns r isWrite)

/-- The spec's decision D4 in R13, which it marks as its own inference (log 16): a write through the Non-secure view shows at the Secure view's positions, and
the reverse: one cell, two positions. -/
def Obligations.SharedFieldsAreOneCellInBothViews : Prop :=
  ∀ (s : State) (u : CpuIface) (d : Word) (f : Field) (pn ps : Nat),
    s.cfg.layout.wf = true → s.current = some u →
    pos s.cfg.layout .ns f = some pn → pos s.cfg.layout .s f = some ps →
    (∃ t t' r, exec (.wrNs d) s = .next t ∧ exec .rdS t = .next t' ∧ t'.resp = some r ∧
      r.getLsbD ps = (raowi s.cfg u.inputs f || d.getLsbD pn)) ∧
    (∃ t t' r, exec (.wrS d) s = .next t ∧ exec .rdNs t = .next t' ∧ t'.resp = some r ∧
      r.getLsbD pn = (raowi s.cfg u.inputs f || d.getLsbD ps))

/-- A write and then a read through the same view returns the written word, its reserved bits cleared with `hardwired`
and kept with `stored`, and a 1 for each RAO/WI field: for every view, layout and configuration (R19, R30, R52). -/
def Obligations.ReadAfterWriteReturnsTheWord : Prop :=
  ∀ (s : State) (u : CpuIface) (v : View) (d : Word), s.cfg.layout.wf = true → s.current = some u → v ≠ .absent →
    ∃ t t', exec (wrInstr d v) s = .next t ∧ exec (rdInstr v) t = .next t' ∧
      t'.resp = some (match s.cfg.res0Mode with
        | .hardwired => (d &&& mask s.cfg.layout v) ||| raowiMask s.cfg u.inputs v
        | .stored => d ||| raowiMask s.cfg u.inputs v)

/-- R44: two reads with nothing between them return the same value, except in bits whose cell is UNKNOWN: the bits of a
field whose effective value is known agree, and so do the reserved bits where they are hardwired or their cells known. -/
def Obligations.TwoReadsReturnTheSameValue : Prop :=
  ∀ (s : State) (u : CpuIface) (v : View), s.cfg.layout.wf = true → s.current = some u →
    ∃ t t' r r', exec (rdInstr v) s = .next t ∧ t.resp = some r ∧ exec (rdInstr v) t = .next t' ∧ t'.resp = some r' ∧
      t.cpus = s.cpus ∧ t'.cpus = s.cpus ∧
      ∀ k, k < 32 →
        (∃ f b, pos s.cfg.layout v f = some k ∧ eff s.cfg u f = .known b) ∨
          ((∀ f, pos s.cfg.layout v f ≠ some k) ∧
            (s.cfg.res0Mode = .hardwired ∨ ∃ w, u.reserved v = .known w)) →
        r'.getLsbD k = r.getLsbD k

/-- R44: "A write of the value the register already holds changes nothing": reading and writing the word back leaves
every register copy. -/
def Obligations.WritingBackTheReadWordChangesNothing : Prop :=
  ∀ (s : State) (u : CpuIface) (v : View), s.Inv → s.current = some u → u.KnownIn s.cfg v →
    (s.cfg.res0Mode = .stored → ∃ w, u.reserved v = .known w) →
    ∃ t r t', exec (rdInstr v) s = .next t ∧ t.resp = some r ∧ exec (wrInstr r v) t = .next t' ∧ t'.cpus = s.cpus

/-- R56: what `setb` and `clrb` do with nothing between their two lines. Refused while `SRE = 1` with `SRE_ACCESS = refuse`
(R47), and for a view the configuration has not (R53); through `raz_wi` they change no copy; else they set, or clear, the
masked bits of the fields of their view that are not RAO/WI (an UNKNOWN one that the mask leaves is written with what the
read drew), and keep every other cell. How a line reaches the register is the model's choice (log 30). -/
def Obligations.SetbAndClrbChangeTheMaskedBits : Prop :=
  ∀ (s : State) (p : Nat) (u : CpuIface) (v : View) (n : Nat) (m : Word) (x : Vars), s.cfg.wf = true →
    s.cpus[p]? = some u → v ≠ .absent →
    let has : Prop := s.cfg.hasLegacy = true ∧
      (match v with
        | .absent => False
        | .ns => s.cfg.banked = true
        | .s => s.cfg.banked = true
        | .oneState => s.cfg.banked = false)
    (u.inputs.sre = true ∧ s.cfg.sreAccess = .refuse →
      runLines p (setb v n m) x s = .refused .sreEnabled ∧ runLines p (clrb v n m) x s = .refused .sreEnabled) ∧
    (¬ (u.inputs.sre = true ∧ s.cfg.sreAccess = .refuse) → ¬ has →
      runLines p (setb v n m) x s = .refused .viewNotProduced ∧
      runLines p (clrb v n m) x s = .refused .viewNotProduced) ∧
    (has → u.inputs.sre = true → s.cfg.sreAccess = .razWi →
      ∃ t y t' y', runLines p (setb v n m) x s = .next (t, y) ∧ runLines p (clrb v n m) x s = .next (t', y') ∧
        t.cpus = s.cpus ∧ t'.cpus = s.cpus) ∧
    (has → ¬ (u.inputs.sre = true ∧ s.cfg.sreAccess ≠ .normal) →
      ∃ t y w t' y' w', runLines p (setb v n m) x s = .next (t, y) ∧ t.cpus = s.cpus.set p w ∧
        runLines p (clrb v n m) x s = .next (t', y') ∧ t'.cpus = s.cpus.set p w' ∧
        w.inputs = u.inputs ∧ w'.inputs = u.inputs ∧
        ∀ f : Field,
          (pos s.cfg.layout v f = none ∨ raowi s.cfg u.inputs f = true →
            w.cells.get f = u.cells.get f ∧ w'.cells.get f = u.cells.get f) ∧
          ∀ k, pos s.cfg.layout v f = some k → raowi s.cfg u.inputs f = false →
            let before := (u.cells.get f).get ((Config.freeWord s.draws).getLsbD k)
            w.cells.get f = .known (before || m.getLsbD k) ∧ w'.cells.get f = .known (before && !m.getLsbD k))

/-- R46, R92 (a): a Secure read-modify-write undoes a Non-secure write that falls between its two accesses; as
operations, and as a program's lines with the other agent's event between them. -/
def Obligations.ReadModifyWriteUndoesAWriteBetween : Prop :=
  (∀ (s : State) (u : CpuIface) (d : Word), s.cfg.layout.wf = true → s.current = some u → u.KnownIn s.cfg .s →
    ∃ t1 r t2 t3 w, exec .rdS s = .next t1 ∧ t1.resp = some r ∧ exec (.wrNs d) t1 = .next t2 ∧
      exec (.wrS r) t2 = .next t3 ∧ t3.current = some w ∧ w.cells = u.cells) ∧
  (∀ (s : State) (p : Nat) (u : CpuIface) (n : Nat) (d : Word) (x : Vars), s.cfg.wf = true → s.cpus[p]? = some u →
    u.KnownIn s.cfg .s → s.cfg.hasLegacy = true → s.cfg.banked = true → u.inputs.sre = false →
    ∃ t y w, runProgram p
        [.line (.rd .s n), .other ⟨p, .bus ⟨.write d, s.cfg.giccBase, 4, true⟩⟩, .line (.wr .s (.var n))] x s =
          .next (t, y) ∧
      t.cpus[p]? = some w ∧ w.cells = u.cells)

/-- R91 (2): after a whole-register write from the Secure view, or from the single-Security-state view, no field of it
is UNKNOWN, whatever was there before. -/
def Obligations.WholeWriteLeavesEveryFieldKnown : Prop :=
  ∀ (s : State) (u : CpuIface) (d : Word), s.current = some u →
    (∃ t w, exec (.wrS d) s = .next t ∧ t.current = some w ∧ w.KnownIn s.cfg .s) ∧
    (∃ t w, exec (.wr1s d) s = .next t ∧ t.current = some w ∧ w.KnownIn s.cfg .oneState)

/-- Conflict C1 (D8): where every copy's `DIB = DFB`, the two readings of the source agree on every operation. -/
def Obligations.FiqSourceReadingsAgreeWhenDibIsDfb : Prop :=
  ∀ (s : State) (i : Instr) (q : Fiq0Source) (t : State), (∀ u ∈ s.cpus, u.inputs.dib = u.inputs.dfb) →
    exec i s = .next t →
    exec i (s.withFiqSource q) = .next (t.withFiqSource q)

/-! ### Reset and the environment (70_reset_and_hazards) -/

/-- R90 and R31, whose UNKNOWN is the spec's own decision D9 (log 6): what the reset event leaves in every cell and
reserved cell; the inputs are kept; and the start of a run is such a state. That every PE starts a run with the same
inputs is the model's own choice (log 8). -/
def Obligations.ResetEventSetsEveryCell : Prop :=
  let left (c : Config) (w : CpuIface) : Prop :=
    (∀ f : Field, w.cells.get f =
      if staticRaowi c f then .known true
      else match c.resetValue.get f with | some b => .known b | none => .unknown) ∧
    ∀ v : View, v ≠ .absent →
      w.reserved v = match c.res0Mode with | .hardwired => .known 0x00000000#32 | .stored => .unknown
  (∀ (s : State) (p : Nat) (u : CpuIface) (rest : List Event),
    s.queue = ⟨p, .reset⟩ :: rest → s.cpus[p]? = some u →
    ∃ w : CpuIface,
      step s = .next { s with pe := p, cpus := s.cpus.set p w, resp := none, queue := rest } ∧
      left s.cfg w ∧ w.inputs = u.inputs) ∧
  (∀ (c : Config) (x : Inputs), (State.init c x).cpus.length = c.nPe ∧
    ∀ u ∈ (State.init c x).cpus, left c u ∧ u.inputs = x)

/-- What reset leaves in `State.reset` (R31, the spec's own decision D9, log 6): every cell UNKNOWN, every reserved bit 0. The configuration and the inputs
of `State.reset` are the model's choices (logs 3, 4 and 7) and are not stated here. -/
def Obligations.ResetStateHoldsUnknownCells : Prop :=
  State.reset.cpus ≠ [] ∧ ∀ u ∈ State.reset.cpus, (∀ f : Field, u.cells.get f = .unknown) ∧
    u.resNs = .known 0x00000000#32 ∧ u.resS = .known 0x00000000#32 ∧ u.resOne = .known 0x00000000#32

/-- R93 (the spec's own decision D7, log 20) and R94's last sentence: an environment step sets its input, makes UNKNOWN
exactly the cells whose being RAO/WI it ends, keeps every other cell and the reserved cells; `SRE`, `SRE_EL1` and the two
signalling inputs change no cell. That it sets the input of one PE and leaves every other PE's is the model's own choice
(log 8). -/
def Obligations.InputStepForgetsOnlyEndedRaowiCells : Prop :=
  ∀ (s : State) (p : Nat) (u : CpuIface) (i : Input) (b : Bool) (rest : List Event),
    s.queue = ⟨p, .setInput i b⟩ :: rest → s.cpus[p]? = some u →
    ∃ w : CpuIface,
      step s = .next { s with pe := p, cpus := s.cpus.set p w, resp := none, queue := rest } ∧
      (∀ j : Input, w.inputs.get j = if j = i then b else u.inputs.get j) ∧
      (∀ f : Field, w.cells.get f =
        if raowi s.cfg u.inputs f = true ∧ raowi s.cfg w.inputs f = false then .unknown else u.cells.get f) ∧
      (∀ v : View, w.reserved v = u.reserved v) ∧
      (i = .sre ∨ i = .sreEl1 ∨ i = .irqSignallingDisabled ∨ i = .fiqSignallingDisabled → w.cells = u.cells)

/-- R14, R94 (the spec's own decision D21, log 21): a write of `ICC_CTLR_EL3.CBPR_EL1NS` sets `CBPR` and nothing else; `WR.S` and `WR.1S` change what a read of
`ICC_CTLR_EL3.CBPR_EL1NS` finds. -/
def Obligations.CbprIsOneCellWithItsOtherName : Prop :=
  (∀ (s : State) (p : Nat) (u : CpuIface) (b : Bool) (rest : List Event),
    s.queue = ⟨p, .writeCbprEl1ns b⟩ :: rest → s.cpus[p]? = some u →
    ∃ t, step s = .next t ∧
      t = { s with
        pe := p, cpus := s.cpus.set p { u with cells := { u.cells with cbpr := .known b } }, resp := none,
        queue := rest } ∧
      (s.cfg.hasLegacy = true → cbprEl1ns t p = some (.known b))) ∧
  (∀ (s : State) (u : CpuIface) (d : Word), s.current = some u → s.cfg.hasLegacy = true →
    (∃ t, exec (.wrS d) s = .next t ∧ cbprEl1ns t s.pe = some (.known (d.getLsbD (s.cfg.layout.sGap + 3)))) ∧
    (∃ t, exec (.wr1s d) s = .next t ∧ cbprEl1ns t s.pe = some (.known (d.getLsbD (s.cfg.layout.oneGap + 3)))))

/-! ### Invariants and isolation -/

/-- The invariant holds at `State.reset`. -/
def Obligations.InvariantHoldsAtReset : Prop := State.reset.Inv

/-- R4: a configuration is built exactly if it meets the constraints, and what is built meets the invariant; `CBPR`,
`EnableGrp1` and `EnableGrp0` never are RAO/WI. Beside R4's the constraints are those of R42 and of `N_PE` (00_scope
section 4.1), and the layout's, which is the model's reading of R16 to R18 (log 4); that every PE starts with the same
inputs is the model's own choice (log 8). -/
def Obligations.BuildRejectsIllFormedConfigurations : Prop :=
  ∀ (c : Config) (x : Inputs),
    ((State.build c x).isSome = true ↔
      ((c.irqBypDisGrp1Raowi = true ∨ c.fiqBypDisGrp1Raowi = true ∨ c.irqBypDisGrp0Raowi = true ∨
          c.fiqBypDisGrp0Raowi = true → c.supportsLegacyInterrupts = false) ∧
        (c.fiqEnRaowi = true → c.twoSecurityStates = true) ∧ (c.banked = true → c.twoSecurityStates = true) ∧
        c.giccBase % 4 = 0 ∧ 0 < c.nPe ∧ c.layout.wf = true)) ∧
    (∀ s, State.build c x = some s → s.cfg = c ∧ s.Inv) ∧
    raowi c x .cbpr = false ∧ raowi c x .enableGrp1 = false ∧ raowi c x .enableGrp0 = false

/-- Every step keeps the invariant: a configuration of the hardware, one copy for each PE, statically RAO/WI cells hold 1,
reserved cells hold no field's bit (R4, R19, R30, R31, R87). -/
def Obligations.EveryStepKeepsTheInvariant : Prop :=
  ∀ s t : State, s.Inv → step s = .next t → t.Inv

/-- Over all events: a cell changes only by its own PE's reset (to the value of R31), by a write through a view that holds
it while it is not RAO/WI, by the end of its being RAO/WI (it is then UNKNOWN), or, for `CBPR`, by its other name (R44,
R90, R93, R94). That the event is the same PE's rests on R87 and on the model's choices of logs 6 and 8 (one reset and one
input for each copy); UNKNOWN is the spec's own decisions D7 and D9 (logs 6 and 20). -/
def Obligations.CellChangesOnlyForAStatedCause : Prop :=
  ∀ (s t : State) (p : Nat) (u w : CpuIface) (f : Field), step s = .next t → s.cpus[p]? = some u →
    t.cpus[p]? = some w → w.cells.get f ≠ u.cells.get f →
    ∃ e rest, s.queue = e :: rest ∧ e.pe = p ∧
      ((e.act = .reset ∧ w.cells.get f =
          if staticRaowi s.cfg f then .known true
          else match s.cfg.resetValue.get f with | some b => .known b | none => .unknown) ∨
       (∃ d v k, accessInstr (s.turn p) e.act = some (.ok (wrInstr d v)) ∧ pos s.cfg.layout v f = some k ∧
          raowi s.cfg u.inputs f = false ∧ w.cells.get f = .known (d.getLsbD k)) ∨
       (∃ i b, e.act = .setInput i b ∧ raowi s.cfg u.inputs f = true ∧ raowi s.cfg w.inputs f = false ∧
          w.cells.get f = .unknown) ∨
       (f = .cbpr ∧ ∃ b, e.act = .writeCbprEl1ns b ∧ w.cells.cbpr = .known b))

/-- R49, R70: with `BANKED = 1` a Non-secure bus access changes no Secure-only cell of any PE. -/
def Obligations.NonSecureAccessKeepsSecureOnlyCells : Prop :=
  ∀ (s t : State) (p : Nat) (a : BusAccess) (rest : List Event) (q : Nat) (u w : CpuIface) (f : Field),
    s.cfg.banked = true → a.ns = true → s.queue = ⟨p, .bus a⟩ :: rest → step s = .next t →
    s.cpus[q]? = some u → t.cpus[q]? = some w → f ∈ secureOnly → w.cells.get f = u.cells.get f

/-- R49, R86: isolation. With `BANKED = 1`, take two states that agree but for the Secure-only cells and the other views'
reserved cells. Unless the event is `RD.S`, the step ends alike in both, and the states after agree again, the value
returned among them. A Non-secure bus access is never an operation of the Secure or the single-state view. -/
def Obligations.OnlySecureReadsRevealSecureOnlyCells : Prop :=
  (∀ (s t : State) (e : Event) (rest : List Event), s.cfg.banked = true → s.NsEquiv t → s.queue = e :: rest →
    accessInstr (s.turn e.pe) e.act ≠ some (.ok .rdS) →
    match step s, step t with
    | .next s', .next t' => s'.NsEquiv t'
    | .refused r, .refused r' => r = r'
    | _, _ => False) ∧
  (∀ (s : State) (a : BusAccess) (i : Instr), s.cfg.banked = true → a.ns = true → busInstr a s = .ok i →
    i.view = .ns ∨ i.view = .absent)

/-- The same over runs: with `BANKED = 1`, two machines that agree but for the Secure-only cells and the other views'
reserved cells, and whose events hold no Secure bus read and no presented descriptor of `RD.S`, end `k` steps alike,
whatever other accesses, resets and environment steps fall between (R49, R86). -/
def Obligations.RunsWithoutSecureReadsRevealNothing : Prop :=
  ∀ (k : Nat) (s t : State), s.cfg.banked = true → s.NsEquiv t →
    (∀ e ∈ s.queue, (match e.act with
      | .present bytes => decide ((decode bytes).toOption.map Prod.fst ≠ some .rdS)
      | .bus a => a.ns || decide (a.op ≠ .read)
      | _ => true) = true) →
    match runSteps k s, runSteps k t with
    | .next s', .next t' => s'.NsEquiv t'
    | .refused r, .refused r' => r = r'
    | _, _ => False

/-- R5: no access writes an input. -/
def Obligations.AccessesWriteNoInput : Prop :=
  ∀ (i : Instr) (s t : State) (p : Nat) (u : CpuIface), exec i s = .next t → s.cpus[p]? = some u →
    ∃ w, t.cpus[p]? = some w ∧ w.inputs = u.inputs

/-! ### Outputs (60_exceptions), where the register is in use: `HAS_LEGACY = 1` and `SRE = 0` (R47) -/

/-- R71, R72: the enables; a disabled group is signalled on neither signal, an enabled one may be signalled; and Group
1's enable is what the latest write put in its bit, whichever view wrote it. On which signal an enabled group may be
signalled is the spec's own inference in R73, and `maySignal` as a relation, UNKNOWN fields admitting every value, is read
from R71 and 00_scope section 5.3 (log 19). -/
def Obligations.DisabledGroupIsNotSignalled : Prop :=
  (∀ (s : State) (p : Nat) (u : CpuIface), s.cpus[p]? = some u → s.cfg.hasLegacy = true → u.inputs.sre = false →
    signallingEnabled s p .grp0 = some (eff s.cfg u .enableGrp0) ∧
    signallingEnabled s p .grp1 = some (eff s.cfg u .enableGrp1) ∧
    (eff s.cfg u .enableGrp0 = .known false → ∀ sig, maySignal s p .grp0 sig = some false) ∧
    (eff s.cfg u .enableGrp1 = .known false → ∀ sig, maySignal s p .grp1 sig = some false) ∧
    (eff s.cfg u .enableGrp0 = .known true → ∃ sig, maySignal s p .grp0 sig = some true) ∧
    (eff s.cfg u .enableGrp1 = .known true → maySignal s p .grp1 .irq = some true)) ∧
  (∀ (s : State) (u : CpuIface) (d : Word), s.current = some u → s.cfg.hasLegacy = true → u.inputs.sre = false →
    (∃ t, exec (.wrS d) s = .next t ∧ signallingEnabled t s.pe .grp1 = some (.known (d.getLsbD 1))) ∧
    (∃ t, exec (.wrNs d) s = .next t ∧ signallingEnabled t s.pe .grp1 = some (.known (d.getLsbD 0))))

/-- R73: `FIQEn` chooses Group 0's signal, Group 1 uses IRQ only; so FIQ carries Group 0 only, and only when `eff(FIQEn)`
can be 1 and Group 0 can be enabled, and IRQ carries an enabled Group 1, and an enabled Group 0 when `eff(FIQEn)` can be
0; with `FIQEN_RAOWI = 1` Group 0 is always on FIQ. What each signal can carry is the spec's own inference in R73 from
R71 and R72; that an UNKNOWN field gives an UNKNOWN signal, and admits both values in "can be", is read from 00_scope
section 5.3 (log 19). -/
def Obligations.FiqCarriesOnlyGroup0 : Prop :=
  ∀ (s : State) (p : Nat) (u : CpuIface), s.cpus[p]? = some u → s.cfg.hasLegacy = true → u.inputs.sre = false →
    (eff s.cfg u .fiqEn = .known true → groupSignal s p .grp0 = some (.known .fiq)) ∧
    (eff s.cfg u .fiqEn = .known false → groupSignal s p .grp0 = some (.known .irq)) ∧
    (eff s.cfg u .fiqEn = .unknown → groupSignal s p .grp0 = some .unknown) ∧
    groupSignal s p .grp1 = some (.known .irq) ∧
    (s.cfg.fiqEnRaowi = true → groupSignal s p .grp0 = some (.known .fiq)) ∧
    (∀ g sig, ∃ b, maySignal s p g sig = some b) ∧
    (∀ g, maySignal s p g .fiq = some true ↔
      g = .grp0 ∧ (eff s.cfg u .fiqEn).allows true = true ∧ (eff s.cfg u .enableGrp0).allows true = true) ∧
    (∀ g, maySignal s p g .irq = some true ↔
      (g = .grp1 ∧ (eff s.cfg u .enableGrp1).allows true = true) ∨
      (g = .grp0 ∧ (eff s.cfg u .fiqEn).allows false = true ∧ (eff s.cfg u .enableGrp0).allows true = true))

/-- R74, R75, R76: for each signal and group, the bypass signal is not signalled when the signalling is disabled and the
field is 1; may be signalled when it is 0 or UNKNOWN; and nothing is stated otherwise. `SRE_EL1` changes nothing in what
an access reads or writes, which is the spec's own inference in R76. That a bypass signal may be signalled for an UNKNOWN
field is read from 00_scope section 5.3 (log 19). -/
def Obligations.BypassFieldGatesTheBypassSignal : Prop :=
  (∀ (s : State) (p : Nat) (u : CpuIface) (sig : Signal) (g : Group),
    s.cpus[p]? = some u → s.cfg.hasLegacy = true → u.inputs.sre = false →
    let f : Field := match sig, g with
      | .irq, .grp1 => .irqBypDisGrp1
      | .irq, .grp0 => .irqBypDisGrp0
      | .fiq, .grp1 => .fiqBypDisGrp1
      | .fiq, .grp0 => .fiqBypDisGrp0
    let disabled := match sig with
      | .irq => u.inputs.irqSignallingDisabled
      | .fiq => u.inputs.fiqSignallingDisabled
    (bypass s p sig g = .notSignalled ↔
      disabled = true ∧ u.inputs.sreEl1 = false ∧ eff s.cfg u f = .known true) ∧
    (bypass s p sig g = .mayBeSignalled ↔
      disabled = true ∧ u.inputs.sreEl1 = false ∧ eff s.cfg u f ≠ .known true) ∧
    (disabled = false → bypass s p sig g = .notStated) ∧
    (u.inputs.sreEl1 = true → bypass s p sig g = .notStated)) ∧
  (∀ (c : Config) (u : CpuIface) (b : Bool) (v : View) (drawn data : Word),
    let u' : CpuIface := { u with inputs := { u.inputs with sreEl1 := b } }
    pack c u' drawn v = pack c u drawn v ∧ u'.write c v data = { u.write c v data with inputs := u'.inputs })

/-- R77: which field is the EOI mode of an access; R78, R79: what the mode gives a write to each register; R80: an access
of either direction to `GICC_DIR` in mode 0 is given no meaning; a RAO/WI field's only mode is 1. That an UNKNOWN mode
gives the answers of both modes is read from 00_scope section 5.3 (log 19), and what those answers are for a read is the
model's own choice but for R80's (log 31). -/
def Obligations.EoiModeGovernsTheEndOfInterrupt : Prop :=
  (∀ (s : State) (p : Nat) (u : CpuIface) (ns : Bool), s.cpus[p]? = some u → s.cfg.hasLegacy = true →
    u.inputs.sre = false →
    (s.cfg.banked = false → eoiModeFor s p ns = some (eff s.cfg u .eoiModeS)) ∧
    (s.cfg.banked = true → eoiModeFor s p true = some (eff s.cfg u .eoiModeNs)) ∧
    (s.cfg.banked = true → eoiModeFor s p false = some (eff s.cfg u .eoiModeS)) ∧
    (s.cfg.eoiModeNsRaowi = true → s.cfg.banked = true → eoiModeFor s p true = some (.known true)) ∧
    (s.cfg.eoiModeSRaowi = true → s.cfg.banked = false ∨ ns = false → eoiModeFor s p ns = some (.known true))) ∧
  (∀ (s : State) (p : Nat) (ns : Bool),
    (eoiModeFor s p ns = some (.known false) →
      endAnswers s p ns .eoir true = [.ok { priorityDrop := true, deactivation := true }] ∧
      endAnswers s p ns .aeoir true = [.ok { priorityDrop := true, deactivation := true }] ∧
      ∀ isWrite, endAnswers s p ns .dir isWrite = [.error .dirUnpredictable]) ∧
    (eoiModeFor s p ns = some (.known true) →
      endAnswers s p ns .eoir true = [.ok { priorityDrop := true, deactivation := false }] ∧
      endAnswers s p ns .aeoir true = [.ok { priorityDrop := true, deactivation := false }] ∧
      endAnswers s p ns .dir true = [.ok { priorityDrop := false, deactivation := true }]) ∧
    (∀ r isWrite, eoiModeFor s p ns = some .unknown →
      endAnswers s p ns r isWrite = [endEffect false r isWrite, endEffect true r isWrite]))

/-- R81: the binary point registers. That an UNKNOWN `CBPR` leaves Group 1's register UNKNOWN is read from 00_scope section
5.3 (log 19). -/
def Obligations.CbprChoosesTheBinaryPointRegister : Prop :=
  ∀ (s : State) (p : Nat) (u : CpuIface), s.cpus[p]? = some u → s.cfg.hasLegacy = true → u.inputs.sre = false →
    binaryPointFor s p .grp0 = some (.known .bpr) ∧
    (eff s.cfg u .cbpr = .known true → binaryPointFor s p .grp1 = some (.known .bpr)) ∧
    (eff s.cfg u .cbpr = .known false → binaryPointFor s p .grp1 = some (.known .abpr)) ∧
    (eff s.cfg u .cbpr = .unknown → binaryPointFor s p .grp1 = some .unknown)

/-- R16 to R18, with the spec's default positions, which it takes from general knowledge (log 4): the masks of the
defined bits of the three views. -/
def Obligations.DefaultLayoutMasks : Prop :=
  Layout.default.wf = true ∧ mask Layout.default .ns = 0x00000261#32 ∧ mask Layout.default .s = 0x000007FB#32 ∧
    mask Layout.default .oneState = 0x000003FB#32

/-- R16 to R18 for every layout the source's order allows: no two fields of a view share a bit, no field stands at bit 31,
and the views hold 4, 10 and 9 fields. -/
def Obligations.LayoutsKeepFieldsApart : Prop :=
  ∀ l : Layout, l.wf = true →
    (∀ (v : View) (f : Field) (p : Nat), pos l v f = some p → p ≤ 30) ∧
    (∀ (v : View) (f g : Field) (p : Nat), pos l v f = some p → pos l v g = some p → f = g) ∧
    (allFields.filter (fun f => (pos l .ns f).isSome)).length = 4 ∧
    (allFields.filter (fun f => (pos l .s f).isSome)).length = 10 ∧
    (allFields.filter (fun f => (pos l .oneState f).isSome)).length = 9
end

