-- ==== Sys2Proof/Laws/Decode.lean ====
section
/-! SUPPORT. Laws/Decode.lean: the fields of a descriptor made by `mkAd` (R50), and what the decoder makes of one (R53). -/

namespace Sys2Proof

@[simp] theorem mkAd_offset (w : Bool) (v : View) : (mkAd w v 0#16).extractLsb' 0 16 = 0#16 := by
  cases w <;> cases v <;> decide

theorem mkAd_write (w : Bool) (v : View) : (mkAd w v 0#16).getLsbD 18 = w := by
  cases w <;> cases v <;> decide

@[simp] theorem mkAd_view (w : Bool) (v : View) : viewOfCode ((mkAd w v 0#16).extractLsb' 16 2) = v := by
  cases w <;> cases v <;> decide

/-- `AD` as a number is the row's match (R53). -/
theorem mkAd_toNat (w : Bool) (v : View) :
    (mkAd w v 0#16).toNat = 0x10000 * (viewCode v).toNat + (if w then 0x40000 else 0) := by
  cases w <;> cases v <;> decide

/-- The decoder reads a read's descriptor as the read of its view. -/
@[simp] theorem decodeDescriptor_read (v : View) : decodeDescriptor ⟨mkAd false v 0#16, none⟩ = .ok (rdInstr v) := by
  simp only [decodeDescriptor, mkAd_offset, mkAd_write, mkAd_view, ne_eq, not_true_eq_false, if_false]

/-- The decoder reads a write's descriptor as the write of its view. -/
@[simp] theorem decodeDescriptor_write (v : View) (d : Word) :
    decodeDescriptor ⟨mkAd true v 0#16, some d⟩ = .ok (wrInstr d v) := by
  simp only [decodeDescriptor, mkAd_offset, mkAd_write, mkAd_view, ne_eq, not_true_eq_false, if_false]

/-- The four bytes of a word join to the word. -/
theorem join4_wordBytes (w : Word) :
    join4 (w.extractLsb' 0 8) (w.extractLsb' 8 8) (w.extractLsb' 16 8) (w.extractLsb' 24 8) = w := by
  ext k hk
  simp only [join4, BitVec.getElem_or, BitVec.getElem_shiftLeft, BitVec.getElem_setWidth, BitVec.getLsbD_extractLsb']
  grind

/-- The bytes of joined bytes are those bytes. -/
theorem wordBytes_join4 (b0 b1 b2 b3 : Byte) : wordBytes (join4 b0 b1 b2 b3) = [b0, b1, b2, b3] := by
  simp only [wordBytes, List.cons.injEq, and_true]
  refine ⟨?_, ?_, ?_, ?_⟩ <;> ext k hk <;>
    simp only [join4, BitVec.getElem_extractLsb', BitVec.getLsbD_or, BitVec.getLsbD_shiftLeft, BitVec.getLsbD_setWidth] <;>
    grind

/-- The three bytes of an `AD` join to it, with zeros above bit 18. -/
theorem join3_adBytes (a : BitVec 19) :
    join3 (a.extractLsb' 0 8) (a.extractLsb' 8 8) ((a.extractLsb' 16 3).setWidth 8) = a.setWidth 24 := by
  ext k hk
  simp only [join3, BitVec.getElem_or, BitVec.getElem_shiftLeft, BitVec.getElem_setWidth, BitVec.getLsbD_extractLsb',
    BitVec.getLsbD_setWidth]
  grind

/-- Bits 18 to 0 of three bytes whose bits 23 to 19 are zero, laid out again, are those bytes. -/
theorem adBytes_join3 {b0 b1 b2 : Byte} (h : (join3 b0 b1 b2).extractLsb' 19 5 = 0#5) :
    adBytes ((join3 b0 b1 b2).extractLsb' 0 19) = [b0, b1, b2] := by
  have hb : ∀ k, k < 5 → (join3 b0 b1 b2).getLsbD (19 + k) = false := by
    intro k hk
    have := congrArg (fun z => z.getLsbD k) h
    simpa [BitVec.getLsbD_extractLsb', hk] using this
  simp only [adBytes, List.cons.injEq, and_true]
  refine ⟨?_, ?_, ?_⟩ <;> ext k hk
  · simp only [join3, BitVec.getElem_extractLsb', BitVec.getLsbD_extractLsb', BitVec.getLsbD_or, BitVec.getLsbD_shiftLeft,
      BitVec.getLsbD_setWidth]
    grind
  · simp only [join3, BitVec.getElem_extractLsb', BitVec.getLsbD_extractLsb', BitVec.getLsbD_or, BitVec.getLsbD_shiftLeft,
      BitVec.getLsbD_setWidth]
    grind
  · have := hb (k - 3)
    simp only [join3, BitVec.getElem_setWidth, BitVec.getLsbD_extractLsb', BitVec.getLsbD_or, BitVec.getLsbD_shiftLeft,
      BitVec.getLsbD_setWidth] at this ⊢
    grind

/-- An operation is the read or the write of its view. -/
theorem Instr.eq_rd_or_wr (i : Instr) : (i = rdInstr i.view ∧ i.data = none) ∨ ∃ d, i = wrInstr d i.view ∧ i.data = some d := by
  cases i <;> first | exact .inl ⟨rfl, rfl⟩ | exact .inr ⟨_, rfl, rfl⟩

@[simp] theorem rdInstr_view (v : View) : (rdInstr v).view = v := by cases v <;> rfl

@[simp] theorem wrInstr_view (d : Word) (v : View) : (wrInstr d v).view = v := by cases v <;> rfl

@[simp] theorem rdInstr_data (v : View) : (rdInstr v).data = none := by cases v <;> rfl

@[simp] theorem wrInstr_data (d : Word) (v : View) : (wrInstr d v).data = some d := by cases v <;> rfl

/-- The decoder reads an operation's descriptor as the operation. -/
theorem decodeDescriptor_descriptor (i : Instr) : decodeDescriptor i.descriptor = .ok i := by
  rcases i.eq_rd_or_wr with ⟨hi, hd⟩ | ⟨d, hi, hd⟩
  · rw [Instr.descriptor, hd, Option.isSome_none, decodeDescriptor_read, ← hi]
  · rw [Instr.descriptor, hd, Option.isSome_some, decodeDescriptor_write, ← hi]

end Sys2Proof
end

