-- ==== Sys2Proof/Laws/State.lean ====
section
/-! SUPPORT. Laws/State.lean: one lemma for each field of the state under each update, and for each entry of a field table. -/

namespace Sys2Proof

@[simp] theorem FieldTable.get_ofRule {α : Type} (f : Field → α) (g : Field) : (FieldTable.ofRule f).get g = f g := by
  cases g <;> rfl

/-- A table is determined by its entries. -/
theorem FieldTable.ext_get {α : Type} {t t' : FieldTable α} (h : ∀ f, t.get f = t'.get f) : t = t' := by
  cases t
  cases t'
  have h1 := h .eoiModeNs
  have h2 := h .eoiModeS
  have h3 := h .irqBypDisGrp1
  have h4 := h .fiqBypDisGrp1
  have h5 := h .irqBypDisGrp0
  have h6 := h .fiqBypDisGrp0
  have h7 := h .cbpr
  have h8 := h .fiqEn
  have h9 := h .enableGrp1
  have h10 := h .enableGrp0
  simp only [FieldTable.get] at h1 h2 h3 h4 h5 h6 h7 h8 h9 h10
  subst h1 h2 h3 h4 h5 h6 h7 h8 h9 h10
  rfl

theorem mem_allFields (f : Field) : f ∈ allFields := by cases f <;> decide

namespace Machine

@[simp] theorem State.put_cfg (s : State) (u : CpuIface) : (s.put u).cfg = s.cfg := rfl

@[simp] theorem State.put_cpus (s : State) (u : CpuIface) : (s.put u).cpus = s.cpus.set s.pe u := rfl

@[simp] theorem State.put_pe (s : State) (u : CpuIface) : (s.put u).pe = s.pe := rfl

@[simp] theorem State.put_queue (s : State) (u : CpuIface) : (s.put u).queue = s.queue := rfl

@[simp] theorem State.put_resp (s : State) (u : CpuIface) : (s.put u).resp = s.resp := rfl

@[simp] theorem State.put_draws (s : State) (u : CpuIface) : (s.put u).draws = s.draws := rfl

@[simp] theorem State.answer_cfg (s : State) (r : Option Word) : (s.answer r).cfg = s.cfg := rfl

@[simp] theorem State.answer_cpus (s : State) (r : Option Word) : (s.answer r).cpus = s.cpus := rfl

@[simp] theorem State.answer_pe (s : State) (r : Option Word) : (s.answer r).pe = s.pe := rfl

@[simp] theorem State.answer_queue (s : State) (r : Option Word) : (s.answer r).queue = s.queue := rfl

@[simp] theorem State.answer_resp (s : State) (r : Option Word) : (s.answer r).resp = r := rfl

@[simp] theorem State.answer_draws (s : State) (r : Option Word) : (s.answer r).draws = s.draws := rfl

@[simp] theorem State.spend_cfg (s : State) : (s.spend).cfg = s.cfg := rfl

@[simp] theorem State.spend_cpus (s : State) : (s.spend).cpus = s.cpus := rfl

@[simp] theorem State.spend_pe (s : State) : (s.spend).pe = s.pe := rfl

@[simp] theorem State.spend_queue (s : State) : (s.spend).queue = s.queue := rfl

@[simp] theorem State.spend_resp (s : State) : (s.spend).resp = s.resp := rfl

@[simp] theorem State.spend_draws (s : State) : (s.spend).draws = s.draws + 1 := rfl

@[simp] theorem State.retire_cfg (s : State) : (s.retire).cfg = s.cfg := rfl

@[simp] theorem State.retire_cpus (s : State) : (s.retire).cpus = s.cpus := rfl

@[simp] theorem State.retire_pe (s : State) : (s.retire).pe = s.pe := rfl

@[simp] theorem State.retire_queue (s : State) : (s.retire).queue = s.queue.tail := rfl

@[simp] theorem State.retire_resp (s : State) : (s.retire).resp = s.resp := rfl

@[simp] theorem State.retire_draws (s : State) : (s.retire).draws = s.draws := rfl

@[simp] theorem State.turn_cfg (s : State) (p : Nat) : (s.turn p).cfg = s.cfg := rfl

@[simp] theorem State.turn_cpus (s : State) (p : Nat) : (s.turn p).cpus = s.cpus := rfl

@[simp] theorem State.turn_pe (s : State) (p : Nat) : (s.turn p).pe = p := rfl

@[simp] theorem State.turn_queue (s : State) (p : Nat) : (s.turn p).queue = s.queue := rfl

@[simp] theorem State.turn_resp (s : State) (p : Nat) : (s.turn p).resp = s.resp := rfl

@[simp] theorem State.turn_draws (s : State) (p : Nat) : (s.turn p).draws = s.draws := rfl

/-- Serving a PE selects its register copy. -/
@[simp] theorem State.turn_current (s : State) (p : Nat) : (s.turn p).current = s.cpus[p]? := rfl

@[simp] theorem Stored.get_known {α : Type} (a d : α) : (Stored.known a).get d = a := rfl

@[simp] theorem Stored.get_unknown {α : Type} (d : α) : (Stored.unknown : Stored α).get d = d := rfl

@[simp] theorem CpuIface.write_inputs (c : Config) (u : CpuIface) (v : View) (d : Word) :
    (u.write c v d).inputs = u.inputs := by cases v <;> rfl

@[simp] theorem CpuIface.write_get (c : Config) (u : CpuIface) (v : View) (d : Word) (f : Field) :
    (u.write c v d).cells.get f = writtenCell c u v d f := by
  cases v <;> exact FieldTable.get_ofRule _ f

@[simp] theorem CpuIface.reset_inputs (c : Config) (u : CpuIface) : (u.reset c).inputs = u.inputs := rfl

@[simp] theorem CpuIface.reset_get (c : Config) (u : CpuIface) (f : Field) : (u.reset c).cells.get f = resetCell c f :=
  FieldTable.get_ofRule _ f

@[simp] theorem CpuIface.reset_reserved (c : Config) (u : CpuIface) (v : View) (h : v ≠ .absent) :
    (u.reset c).reserved v = resetReserved c := by
  cases v <;> first | rfl | exact absurd rfl h

@[simp] theorem CpuIface.setInput_get (c : Config) (u : CpuIface) (i : Input) (b : Bool) (f : Field) :
    (u.setInput c i b).cells.get f = envCell c u.inputs (u.inputs.set b i) u.cells f := FieldTable.get_ofRule _ f

@[simp] theorem CpuIface.setInput_inputs (c : Config) (u : CpuIface) (i : Input) (b : Bool) :
    (u.setInput c i b).inputs = u.inputs.set b i := rfl

@[simp] theorem CpuIface.setInput_reserved (c : Config) (u : CpuIface) (i : Input) (b : Bool) (v : View) :
    (u.setInput c i b).reserved v = u.reserved v := by cases v <;> rfl

@[simp] theorem CpuIface.writeCbprEl1ns_get (u : CpuIface) (b : Bool) (f : Field) :
    (u.writeCbprEl1ns b).cells.get f = if f = .cbpr then .known b else u.cells.get f := by cases f <;> rfl

@[simp] theorem CpuIface.writeCbprEl1ns_inputs (u : CpuIface) (b : Bool) : (u.writeCbprEl1ns b).inputs = u.inputs := rfl

@[simp] theorem CpuIface.writeCbprEl1ns_reserved (u : CpuIface) (b : Bool) (v : View) :
    (u.writeCbprEl1ns b).reserved v = u.reserved v := by cases v <;> rfl

/-- A write through a view assigns the reserved cells of that view alone (R30). -/
theorem CpuIface.write_reserved (c : Config) (u : CpuIface) (v w : View) (d : Word) :
    (u.write c v d).reserved w = if w = v ∧ v ≠ .absent then writtenReserved c (u.reserved v) v d else u.reserved w := by
  cases v <;> cases w <;> simp [CpuIface.write, CpuIface.reserved]

end Machine

end Sys2Proof
end

