-- ==== Sys2Proof/Laws/Operands.lean ====
section
/-! SUPPORT. Laws/Operands.lean: the bits of a packed word, a mask and a written cell, said once for every view and every
layout that keeps the source's order (R16 to R18, R30, R52). -/

namespace Sys2Proof.Machine

theorem eff_of_raowi {c : Config} {u : CpuIface} {f : Field} (h : raowi c u.inputs f = true) : eff c u f = .known true := by
  simp [eff, h]

theorem eff_of_not_raowi {c : Config} {u : CpuIface} {f : Field} (h : raowi c u.inputs f = false) :
    eff c u f = u.cells.get f := by
  simp [eff, h]

/-- A field of a well-formed layout stands below bit 31. -/
theorem pos_lt {l : Layout} (h : l.wf = true) {v : View} {f : Field} {p : Nat} (hp : pos l v f = some p) : p < 32 := by
  simp only [Layout.wf, Layout.nsOk, Layout.sOk, Layout.oneOk, Bool.and_eq_true, decide_eq_true_eq] at h
  cases v <;> cases f <;> simp only [pos, Option.some.injEq, reduceCtorEq] at hp <;> omega

/-- No two fields of a view stand at one bit. -/
theorem pos_inj {l : Layout} (h : l.wf = true) {v : View} {f g : Field} {p : Nat} (hf : pos l v f = some p)
    (hg : pos l v g = some p) : f = g := by
  simp only [Layout.wf, Layout.nsOk, Layout.sOk, Layout.oneOk, Bool.and_eq_true, decide_eq_true_eq] at h
  cases v <;> cases f <;> simp only [pos, Option.some.injEq, reduceCtorEq] at hf <;>
    cases g <;> simp only [pos, Option.some.injEq, reduceCtorEq] at hg <;> first | rfl | omega

theorem getLsbD_place (l : Layout) (v : View) (b : Nat → Field → Bool) (f : Field) (i : Nat) (hi : i < 32) :
    (place l v b f).getLsbD i = (decide (pos l v f = some i) && b i f) := by
  unfold place
  cases hp : pos l v f with
  | none => simp
  | some p =>
    simp only [BitVec.getLsbD_shiftLeft, BitVec.getLsbD_setWidth, BitVec.getLsbD_ofBool, hi, decide_true,
      Bool.true_and, Option.some.injEq]
    by_cases h : p = i
    · subst h; simp
    · simp only [h, decide_false, Bool.false_and]
      by_cases hlt : i < p
      · simp [hlt]
      · have : i - p ≠ 0 := by omega
        simp [this]

theorem getLsbD_foldr_place (l : Layout) (v : View) (b : Nat → Field → Bool) (fs : List Field) (i : Nat) (hi : i < 32) :
    (fs.foldr (fun f w => place l v b f ||| w) 0#32).getLsbD i =
      fs.any (fun f => decide (pos l v f = some i) && b i f) := by
  induction fs with
  | nil => simp
  | cons f fs ih => simp only [List.foldr_cons, BitVec.getLsbD_or, ih, getLsbD_place l v b f i hi, List.any_cons]

/-- A field's bit is what was placed for it. -/
theorem getLsbD_placeAll_at {l : Layout} (h : l.wf = true) {v : View} (b : Nat → Field → Bool) {f : Field} {p : Nat}
    (hp : pos l v f = some p) : (placeAll l v b).getLsbD p = b p f := by
  rw [placeAll, getLsbD_foldr_place l v b allFields p (pos_lt h hp), Bool.eq_iff_iff, List.any_eq_true]
  constructor
  · rintro ⟨g, -, hg⟩
    simp only [Bool.and_eq_true, decide_eq_true_eq] at hg
    rw [pos_inj h hp hg.1]
    exact hg.2
  · exact fun hb => ⟨f, mem_allFields f, by simp [hp, hb]⟩

/-- A bit where the view holds no field is 0. -/
theorem getLsbD_placeAll_off {l : Layout} {v : View} (b : Nat → Field → Bool) {i : Nat} (hn : ∀ f, pos l v f ≠ some i) :
    (placeAll l v b).getLsbD i = false := by
  by_cases hi : i < 32
  · rw [placeAll, getLsbD_foldr_place l v b allFields i hi]
    simp [hn]
  · exact BitVec.getLsbD_of_ge _ _ (by omega)

theorem getLsbD_mask_at {l : Layout} (h : l.wf = true) {v : View} {f : Field} {p : Nat} (hp : pos l v f = some p) :
    (mask l v).getLsbD p = true := getLsbD_placeAll_at h _ hp

theorem getLsbD_mask_off {l : Layout} {v : View} {i : Nat} (hn : ∀ f, pos l v f ≠ some i) :
    (mask l v).getLsbD i = false := getLsbD_placeAll_off _ hn

/-- A read's bit at a field's position: the effective value, an UNKNOWN cell drawing that bit (R52). -/
theorem getLsbD_pack_at {c : Config} (h : c.layout.wf = true) (u : CpuIface) (d : Word) {v : View} {f : Field} {p : Nat}
    (hp : pos c.layout v f = some p) : (pack c u d v).getLsbD p = (eff c u f).get (d.getLsbD p) := by
  have hres : (reservedBits c u d v).getLsbD p = false := by
    unfold reservedBits
    cases c.res0Mode <;> simp [getLsbD_mask_at h hp]
  simp [pack, hres, getLsbD_placeAll_at h _ hp]

/-- A read's reserved bit: 0 with `hardwired`, the view's reserved cell with `stored` (R30). -/
theorem getLsbD_pack_off {c : Config} (u : CpuIface) (d : Word) {v : View} {i : Nat} (hi : i < 32)
    (hn : ∀ f, pos c.layout v f ≠ some i) :
    (pack c u d v).getLsbD i =
      match c.res0Mode with
      | .hardwired => false
      | .stored => ((u.reserved v).get d).getLsbD i := by
  simp only [pack, BitVec.getLsbD_or, getLsbD_placeAll_off _ hn, Bool.false_or, reservedBits]
  cases c.res0Mode with
  | hardwired => simp
  | stored => rw [BitVec.getLsbD_and, BitVec.getLsbD_not, getLsbD_mask_off hn]; simp [hi]

/-- What a write leaves in a cell of its view (R61, R63, R65). -/
theorem writtenCell_at {c : Config} {v : View} {f : Field} {p : Nat} (hp : pos c.layout v f = some p) (u : CpuIface)
    (d : Word) : writtenCell c u v d f = if raowi c u.inputs f then u.cells.get f else .known (d.getLsbD p) := by
  simp [writtenCell, unpack, hp]

/-- A write keeps a cell its view does not hold. -/
theorem writtenCell_off {c : Config} {v : View} {f : Field} (hp : pos c.layout v f = none) (u : CpuIface) (d : Word) :
    writtenCell c u v d f = u.cells.get f := by
  simp [writtenCell, unpack, hp]

/-- The effective value of a field just after a write through a view that holds it: 1 if it is RAO/WI, else the written
bit (R19). -/
theorem eff_write_at {c : Config} {v : View} {f : Field} {p : Nat} (hp : pos c.layout v f = some p) (u : CpuIface)
    (d : Word) : eff c (u.write c v d) f = .known (raowi c u.inputs f || d.getLsbD p) := by
  rw [eff, CpuIface.write_inputs, CpuIface.write_get, writtenCell_at hp]
  cases raowi c u.inputs f <;> rfl

end Sys2Proof.Machine
end

