-- ==== Sys2Proof/Laws/Ops.lean ====
section
/-! SUPPORT. Laws/Ops.lean: what each shared operation can do, said once, and what a step can do (`step_cases`). -/

namespace Sys2Proof.Machine

/-- A read answers next exactly when the served PE has a register copy. -/
theorem readView_next {v : View} {s t : State} (h : readView v s = .next t) :
    ∃ u, s.current = some u ∧ t = ((s.answer (some (pack s.cfg u (Config.freeWord s.draws) v))).spend.retire) := by
  unfold readView at h
  split at h
  · next u hu => exact ⟨u, hu, by cases h; rfl⟩
  · cases h

theorem writeView_next {v : View} {d : Word} {s t : State} (h : writeView v d s = .next t) :
    ∃ u, s.current = some u ∧ t = (((s.put (u.write s.cfg v d)).answer none).retire) := by
  unfold writeView at h
  split at h
  · next u hu => exact ⟨u, hu, by cases h; rfl⟩
  · cases h

theorem onCurrent_next {f : CpuIface → CpuIface} {s t : State} (h : onCurrent f s = .next t) :
    ∃ u, s.current = some u ∧ t = (((s.put (f u)).answer none).retire) := by
  unfold onCurrent at h
  split at h
  · next u hu => exact ⟨u, hu, by cases h; rfl⟩
  · cases h

theorem readView_of_current {s : State} {u : CpuIface} (v : View) (hu : s.current = some u) :
    readView v s = .next ((s.answer (some (pack s.cfg u (Config.freeWord s.draws) v))).spend.retire) := by
  simp only [readView, hu]

theorem writeView_of_current {s : State} {u : CpuIface} (v : View) (d : Word) (hu : s.current = some u) :
    writeView v d s = .next (((s.put (u.write s.cfg v d)).answer none).retire) := by
  simp only [writeView, hu]

/-- The read of a view that is there is `readView`. -/
theorem exec_rdInstr {v : View} (hv : v ≠ .absent) (s : State) : exec (rdInstr v) s = readView v s := by
  cases v <;> first | rfl | exact absurd rfl hv

/-- The write of a view that is there is `writeView`. -/
theorem exec_wrInstr {v : View} (hv : v ≠ .absent) (d : Word) (s : State) : exec (wrInstr d v) s = writeView v d s := by
  cases v <;> first | rfl | exact absurd rfl hv

/-- The served copy after it was replaced. -/
theorem State.put_current {s : State} {u : CpuIface} (w : CpuIface) (hu : s.current = some u) :
    (s.put w).current = some w := by
  obtain ⟨hlt, -⟩ := List.getElem?_eq_some_iff.1 hu
  simp [State.current, State.put, List.getElem?_set_self hlt]

/-- A decoded descriptor of R51 is the operation of its direction and view. -/
theorem decodeDescriptor_mkAd (op : BusOp) (v : View) :
    decodeDescriptor ⟨mkAd op.isWrite v 0x0000#16, op.data⟩ =
      .ok (match op with | .read => rdInstr v | .write d => wrInstr d v) := by
  cases op with
  | read => exact decodeDescriptor_read v
  | write d => exact decodeDescriptor_write v d

/-- What an operation can do: answer a value and change no register copy; write the served copy through a view; or be
dropped. -/
theorem exec_cases {i : Instr} {s t : State} (h : exec i s = .next t) :
    (∃ v u, i = rdInstr v ∧ v ≠ .absent ∧ s.current = some u ∧
      t = ((s.answer (some (pack s.cfg u (Config.freeWord s.draws) v))).spend.retire)) ∨
    (∃ v d u, i = wrInstr d v ∧ v ≠ .absent ∧ s.current = some u ∧
      t = (((s.put (u.write s.cfg v d)).answer none).retire)) ∨
    (i = .rdAbsent ∧ t = ((s.answer (some 0#32)).retire)) ∨
    (∃ d, i = .wrAbsent d ∧ t = ((s.answer none).retire)) := by
  cases i with
  | rdAbsent => cases h; exact .inr (.inr (.inl ⟨rfl, rfl⟩))
  | wrAbsent d => cases h; exact .inr (.inr (.inr ⟨d, rfl, rfl⟩))
  | rdNs => obtain ⟨u, hu, ht⟩ := readView_next h; exact .inl ⟨.ns, u, rfl, by decide, hu, ht⟩
  | rdS => obtain ⟨u, hu, ht⟩ := readView_next h; exact .inl ⟨.s, u, rfl, by decide, hu, ht⟩
  | rd1s => obtain ⟨u, hu, ht⟩ := readView_next h; exact .inl ⟨.oneState, u, rfl, by decide, hu, ht⟩
  | wrNs d => obtain ⟨u, hu, ht⟩ := writeView_next h; exact .inr (.inl ⟨.ns, d, u, rfl, by decide, hu, ht⟩)
  | wrS d => obtain ⟨u, hu, ht⟩ := writeView_next h; exact .inr (.inl ⟨.s, d, u, rfl, by decide, hu, ht⟩)
  | wr1s d => obtain ⟨u, hu, ht⟩ := writeView_next h; exact .inr (.inl ⟨.oneState, d, u, rfl, by decide, hu, ht⟩)

/-- What a step can do: nothing; run the operation of an access; or change the copy of the PE whose reset, input or
alias the event is. -/
theorem step_cases {s t : State} (h : step s = .next t) :
    (s.queue = [] ∧ t = s) ∨
    (∃ e rest, s.queue = e :: rest ∧ e.pe < s.cpus.length ∧
      ((∃ i, accessInstr (s.turn e.pe) e.act = some (.ok i) ∧ exec i (s.turn e.pe) = .next t) ∨
       (∃ u f, s.cpus[e.pe]? = some u ∧ t = ((((s.turn e.pe).put (f u)).answer none).retire) ∧
         ((e.act = .reset ∧ f = CpuIface.reset s.cfg) ∨
          (∃ i b, e.act = .setInput i b ∧ f = fun w => w.setInput s.cfg i b) ∨
          (∃ b, e.act = .writeCbprEl1ns b ∧ f = fun w => w.writeCbprEl1ns b))))) := by
  unfold step at h
  split at h
  · next hq => cases h; exact .inl ⟨hq, rfl⟩
  · next e rest hq =>
    split at h
    · next hlt =>
      refine .inr ⟨e, rest, hq, hlt, ?_⟩
      cases ha : e.act with
      | bus b =>
        rw [ha] at h
        simp only [serve, runAccess] at h
        split at h
        · next i hi => exact .inl ⟨i, by simp [accessInstr, hi], h⟩
        · cases h
      | present bytes =>
        rw [ha] at h
        simp only [serve, runAccess] at h
        split at h
        · next i hi => exact .inl ⟨i, by simp [accessInstr, hi], h⟩
        · cases h
      | reset =>
        rw [ha] at h
        obtain ⟨u, hu, ht⟩ := onCurrent_next h
        exact .inr ⟨u, _, by simpa using hu, ht, .inl ⟨rfl, rfl⟩⟩
      | setInput i b =>
        rw [ha] at h
        obtain ⟨u, hu, ht⟩ := onCurrent_next h
        exact .inr ⟨u, _, by simpa using hu, ht, .inr (.inl ⟨i, b, rfl, rfl⟩)⟩
      | writeCbprEl1ns b =>
        rw [ha] at h
        obtain ⟨u, hu, ht⟩ := onCurrent_next h
        exact .inr ⟨u, _, by simpa using hu, ht, .inr (.inr ⟨b, rfl, rfl⟩)⟩
    · cases h

/-- `State.reset` is the start of a run of the default configuration with every input 0 (R90). -/
theorem reset_eq_init : State.reset = State.init Config.default Inputs.low := by decide

end Sys2Proof.Machine
end

