-- ==== Sys2Proof/Laws/PerInstr.lean ====
section
/-! SUPPORT. Laws/PerInstr.lean: for each constructor, the row of the opcode table its descriptor matches (R53): `AD` is
`0x10000 * VIEW` for a read, with bit 18 set for a write, and only a write carries `DATA`. -/

namespace Sys2Proof.Laws.RowOfTable

/-- `AD & 0x7FFFF` is the row's match, and `DATA` is there exactly for `W = 1`. -/
def Statement (i : Instr) : Prop :=
  i.descriptor.ad.toNat = 0x10000 * (viewCode i.view).toNat + (if i.data.isSome then 0x40000 else 0) ∧
    (encode i).length = (if i.data.isSome then 7 else 3)

theorem rdAbsent : Statement .rdAbsent := ⟨mkAd_toNat _ _, rfl⟩

theorem rdNs : Statement .rdNs := ⟨mkAd_toNat _ _, rfl⟩

theorem rdS : Statement .rdS := ⟨mkAd_toNat _ _, rfl⟩

theorem rd1s : Statement .rd1s := ⟨mkAd_toNat _ _, rfl⟩

theorem wrAbsent (data : Word) : Statement (.wrAbsent data) := ⟨mkAd_toNat _ _, rfl⟩

theorem wrNs (data : Word) : Statement (.wrNs data) := ⟨mkAd_toNat _ _, rfl⟩

theorem wrS (data : Word) : Statement (.wrS data) := ⟨mkAd_toNat _ _, rfl⟩

theorem wr1s (data : Word) : Statement (.wr1s data) := ⟨mkAd_toNat _ _, rfl⟩

end Sys2Proof.Laws.RowOfTable
end

