-- ==== Sys2Proof/Laws/Program.lean ====
section
/-! SUPPORT. Laws/Program.lean: what a line of a program does, and a run item by item (R56). -/

namespace Sys2Proof.Machine

@[simp] theorem opInstr_view (v : View) (op : BusOp) : (opInstr v op).view = v := by
  cases op
  · exact rdInstr_view v
  · exact wrInstr_view _ v

@[simp] theorem setVar_same (x : Vars) (n : Nat) (w : Word) : setVar x n w n = w := by simp [setVar]

@[simp] theorem runProgram_nil (p : Nat) (x : Vars) (s : State) : runProgram p [] x s = .next (s, x) := rfl

/-- A run goes on after an item that gives a next state. -/
theorem runProgram_cons_next {p : Nat} {i : Item} {rest : List Item} {x : Vars} {s t : State}
    (h : s.serveNow (i.event s.cfg p x) = .next t) :
    runProgram p (i :: rest) x s = runProgram p rest (i.vars x t.resp) t := by
  simp only [runProgram, h]

/-- A run ends at an item that is refused. -/
theorem runProgram_cons_refused {p : Nat} {i : Item} {rest : List Item} {x : Vars} {s : State} {r : Refusal}
    (h : s.serveNow (i.event s.cfg p x) = .refused r) : runProgram p (i :: rest) x s = .refused r := by
  simp only [runProgram, h]

/-- Serving an event now is the event's step, for its PE. -/
theorem serveNow_of_lt {s : State} {e : Event} (h : e.pe < s.cpus.length) :
    s.serveNow e = serve e.act ({ s with queue := e :: s.queue }.turn e.pe) := by
  simp only [State.serveNow, step, if_pos h]

/-- Where the configuration has the view, R51 selects it for the line's access, or the absent register under `raz_wi`. -/
theorem selectView_of_occursIn {c : Config} {v : View} {op : BusOp} (x : Inputs) (hv : v ≠ .absent)
    (ho : (opInstr v op).occursIn c = true) :
    selectView c x (decide (v = .ns)) = if x.sre = true ∧ c.sreAccess = .razWi then .absent else v := by
  cases v <;> cases op <;>
    simp_all [opInstr, rdInstr, wrInstr, Instr.occursIn, selectView]

/-- What an access line of a view the configuration has does: refused while `SRE = 1` with `SRE_ACCESS = refuse`, the
absent register's operation under `raz_wi`, else the view's (R47, R51; V46). -/
theorem serveNow_lineAccess {s : State} {p : Nat} {u : CpuIface} {v : View} {op : BusOp} (hu : s.cpus[p]? = some u)
    (hb : s.cfg.giccBase % 4 = 0) (hv : v ≠ .absent) (ho : (opInstr v op).occursIn s.cfg = true) :
    s.serveNow ⟨p, lineAccess s.cfg v op⟩ =
      if u.inputs.sre = true ∧ s.cfg.sreAccess = .refuse then .refused .sreEnabled
      else exec (opInstr (if u.inputs.sre = true ∧ s.cfg.sreAccess = .razWi then .absent else v) op)
        ({ s with queue := ⟨p, lineAccess s.cfg v op⟩ :: s.queue }.turn p) := by
  obtain ⟨hlt, -⟩ := List.getElem?_eq_some_iff.1 hu
  have hc : ({ s with queue := ⟨p, lineAccess s.cfg v op⟩ :: s.queue }.turn p).current = some u := hu
  rw [serveNow_of_lt hlt]
  generalize hq : ({ s with queue := (⟨p, lineAccess s.cfg v op⟩ : Event) :: s.queue }.turn p) = s' at hc ⊢
  have hcfg : s'.cfg = s.cfg := by rw [← hq]; rfl
  simp only [lineAccess, if_pos (And.intro hv ho), serve, busInstr, hc, busInstrUnder, selectAccess, hcfg, hb,
    Nat.add_zero, ne_eq, not_true_eq_false, or_self, if_false]
  by_cases hr : u.inputs.sre = true ∧ s.cfg.sreAccess = .refuse
  · simp only [if_pos hr, runAccess]
  · simp only [if_neg hr, selectView_of_occursIn u.inputs hv ho, decodeDescriptor_mkAd, runAccess]
    cases op <;> rfl

end Sys2Proof.Machine
end

