-- ==== Sys2Proof/Tests/Slice0.lean ====
section
/-! SUPPORT. Tests/Slice0.lean: the smoke tests of WellFormed, the decode tests, single-step tests whose expected results are
the vectors V<n> of 95_test_vectors.md (hexadecimal values in the default layout), and for each statement with
hypotheses a state that meets them. -/

namespace Sys2Proof.Tests

open Sys2Proof.Machine

/-! ### Helpers -/

/-- "cells = 0xNNN" of 95_test_vectors.md: the ten cells at their Secure-view positions. -/
def cellsOf (n : Word) : Cells where
  eoiModeNs := .known (n.getLsbD 10)
  eoiModeS := .known (n.getLsbD 9)
  irqBypDisGrp1 := .known (n.getLsbD 8)
  fiqBypDisGrp1 := .known (n.getLsbD 7)
  irqBypDisGrp0 := .known (n.getLsbD 6)
  fiqBypDisGrp0 := .known (n.getLsbD 5)
  cbpr := .known (n.getLsbD 4)
  fiqEn := .known (n.getLsbD 3)
  enableGrp1 := .known (n.getLsbD 1)
  enableGrp0 := .known (n.getLsbD 0)

/-- A register copy with given cells and inputs. -/
def cpuOf (n : Word) (x : Inputs) : CpuIface :=
  { cells := cellsOf n, resNs := .known 0#32, resS := .known 0#32, resOne := .known 0#32, inputs := x }

/-- One PE, a configuration, cells, inputs and the events to come. -/
def stateOf (c : Config) (n : Word) (x : Inputs) (q : List Event) : State :=
  { State.reset with cfg := c, cpus := [cpuOf n x], queue := q }

/-- Configuration C0 of 95_test_vectors.md. -/
def c0 : Config := Config.default

/-- Configuration C1: no Security split. -/
def c1 : Config := { Config.default with banked := false }

/-- Configuration CA: the register absent. -/
def cA : Config := { Config.default with hasLegacy := false }

/-- C0 with the reserved cells stored. -/
def cStored : Config := { Config.default with res0Mode := .stored }

/-- `SRE_EL3 = 1` with given `DIB`, `DFB`. -/
def el3 (dib dfb : Bool) : Inputs := { Inputs.low with sreEl3 := true, dib := dib, dfb := dfb }

/-- What a step returned to its PE. -/
def answerOf : Host.Outcome State Fault Refusal → Option Word
  | .next t => t.resp
  | .fault _ => none
  | .refused _ => none

/-- The cells of PE 0 after a step. -/
def cellsAfter : Host.Outcome State Fault Refusal → Option Cells
  | .next t => t.cpus.head?.map (fun u => u.cells)
  | .fault _ => none
  | .refused _ => none

/-- The reason a step was refused. -/
def refusalAfter : Host.Outcome State Fault Refusal → Option Refusal
  | .next _ => none
  | .fault _ => none
  | .refused r => some r

def isNext : Host.Outcome State Fault Refusal → Bool
  | .next _ => true
  | .fault _ => false
  | .refused _ => false

/-- The variables of a program that no line has given a value. -/
def vars0 : Vars := fun _ => 0#32

/-- The cells of PE 0 after a run of a program. -/
def cellsAfterRun : Host.Outcome (State × Vars) Fault Refusal → Option Cells
  | .next (t, _) => t.cpus.head?.map (fun u => u.cells)
  | .fault _ => none
  | .refused _ => none

/-- The reason a run of a program was refused. -/
def refusalAfterRun : Host.Outcome (State × Vars) Fault Refusal → Option Refusal
  | .next _ => none
  | .fault _ => none
  | .refused r => some r

/-- A 4-byte bus access of PE 0 at `GICC_BASE` of C0. -/
def busAt0 (op : BusOp) (ns : Bool) : List Event := [⟨0, .bus { op := op, addr := 0, size := 4, ns := ns }⟩]

/-! ### WellFormed: each check refuses an ill-formed configuration (R4, R42, R16 to R18; V32) -/

theorem test_c0_wf : c0.wf = true ∧ c1.wf = true ∧ cA.wf = true ∧ cStored.wf = true := by decide

theorem test_bypass_raowi_needs_no_legacy_interrupts :
    ({ c0 with irqBypDisGrp1Raowi := true } : Config).bypassRaowiOk = false ∧
    ({ c0 with fiqBypDisGrp1Raowi := true } : Config).bypassRaowiOk = false ∧
    ({ c0 with irqBypDisGrp0Raowi := true } : Config).bypassRaowiOk = false ∧
    ({ c0 with fiqBypDisGrp0Raowi := true } : Config).bypassRaowiOk = false := by decide

theorem test_fiqEn_raowi_needs_two_security_states :
    ({ c1 with twoSecurityStates := false, fiqEnRaowi := true } : Config).wf = false := by decide

theorem test_banked_needs_two_security_states : ({ c0 with twoSecurityStates := false } : Config).wf = false := by decide

theorem test_base_must_be_aligned : ({ c0 with giccBase := 0x1002 } : Config).wf = false := by decide

theorem test_some_pe_exists : ({ c0 with nPe := 0 } : Config).wf = false := by decide

theorem test_layout_order :
    ({ Layout.default with nsEoiModeNs := 7 } : Layout).nsOk = false ∧
    ({ Layout.default with sGap := 0 } : Layout).sOk = false ∧
    ({ Layout.default with sGap := 22 } : Layout).sOk = false ∧
    ({ Layout.default with oneGap := 23 } : Layout).oneOk = false := by decide

theorem test_rows_of_c0 :
    Instr.rdNs.occursIn c0 = true ∧ Instr.rd1s.occursIn c0 = false ∧ Instr.rdAbsent.occursIn c0 = false ∧
    Instr.rdS.occursIn c1 = false ∧ (Instr.wrNs 0#32).occursIn cA = false := by decide

/-! ### Decoding: the words of R53, written out as AD {W, VIEW, OFFSET} in bytes, DATA after it -/

theorem test_decode_reads :
    decode [0x00#8, 0x00#8, 0x00#8] = .ok (.rdAbsent, []) ∧ decode [0x00#8, 0x00#8, 0x01#8] = .ok (.rdNs, []) ∧
    decode [0x00#8, 0x00#8, 0x02#8] = .ok (.rdS, []) ∧ decode [0x00#8, 0x00#8, 0x03#8] = .ok (.rd1s, []) := by decide

theorem test_decode_writes :
    decode [0x00#8, 0x00#8, 0x04#8, 0xFF#8, 0xFF#8, 0xFF#8, 0xFF#8] = .ok (.wrAbsent 0xFFFFFFFF#32, []) ∧
    decode [0x00#8, 0x00#8, 0x05#8, 0x01#8, 0x02#8, 0x00#8, 0x00#8] = .ok (.wrNs 0x00000201#32, []) ∧
    decode [0x00#8, 0x00#8, 0x06#8, 0x0B#8, 0x06#8, 0x00#8, 0x00#8] = .ok (.wrS 0x0000060B#32, []) ∧
    decode [0x00#8, 0x00#8, 0x07#8, 0x0B#8, 0x02#8, 0x00#8, 0x80#8] = .ok (.wr1s 0x8000020B#32, []) := by decide

/-- V48, and bytes that are no descriptor. -/
theorem test_decode_refuses :
    decode [0x04#8, 0x00#8, 0x02#8] = .error .offsetNotZero ∧ decode [0x00#8, 0x00#8, 0x08#8] = .error .paddingNotZero ∧
    decode [0x00#8, 0x00#8] = .error .truncated ∧ decode [0x00#8, 0x00#8, 0x05#8, 0x01#8] = .error .truncated ∧
    decodeDescriptor ⟨0x50000#19, none⟩ = .error .dataMismatch := by decide

theorem test_table_rows_decode :
    decodeTableWord 24 0x00000 = some .rdAbsent ∧ decodeTableWord 24 0x10000 = some .rdNs ∧
    decodeTableWord 24 0x20000 = some .rdS ∧ decodeTableWord 19 0x30000 = some .rd1s ∧
    decodeTableWord 24 0x40000 = some (.wrAbsent 0#32) ∧ decodeTableWord 24 0x50000 = some (.wrNs 0#32) ∧
    decodeTableWord 24 0x60000 = some (.wrS 0#32) ∧ decodeTableWord 19 0x70000 = some (.wr1s 0#32) ∧
    decodeTableWord 24 0x20004 = none := by decide

theorem test_table_rows_run_first_after_reset :
    [0x00000, 0x10000, 0x20000, 0x30000, 0x40000, 0x50000, 0x60000, 0x70000].all
      (fun w => isNext (step (State.reset.withFetchWord 24 w))) = true := by decide

/-! ### The operations, one step each -/

/-- V2. -/
theorem test_rdNs_shows_only_its_fields : answerOf (exec .rdNs (stateOf c0 0x7FB#32 Inputs.low [])) = some 0x261#32 := by
  decide

/-- V4. -/
theorem test_rdNs_leaks_no_secure_cell : answerOf (exec .rdNs (stateOf c0 0x279#32 Inputs.low [])) = some 0#32 := by
  decide

/-- V6. -/
theorem test_wrNs_sets_the_shared_cells :
    cellsAfter (exec (.wrNs 0xFFFFFFFF#32) (stateOf c0 0#32 Inputs.low [])) = some (cellsOf 0x582#32) := by decide

/-- V9. -/
theorem test_wrNs_drops_reserved_bits :
    cellsAfter (exec (.wrNs 0x19E#32) (stateOf c0 0#32 Inputs.low [])) = some (cellsOf 0#32) := by decide

/-- V24, both readings of conflict C1. -/
theorem test_rdS_raowi_under_both_readings :
    answerOf (exec .rdS (stateOf { c0 with fiq0RaowiSource := .dib } 0#32 (el3 true false) [])) = some 0x160#32 ∧
    answerOf (exec .rdS (stateOf { c0 with fiq0RaowiSource := .dfb } 0#32 (el3 true false) [])) = some 0x140#32 := by
  decide

/-- V14. -/
theorem test_rdS_packs_layout2 : answerOf (exec .rdS (stateOf c0 0xB#32 Inputs.low [])) = some 0xB#32 := by decide

/-- V13. -/
theorem test_wrS_drops_bit_2 : cellsAfter (exec (.wrS 4#32) (stateOf c0 0x7FB#32 Inputs.low [])) = some (cellsOf 0#32) := by
  decide

/-- V31: with every RAO/WI parameter 1, only `CBPR`, `EnableGrp1`, `EnableGrp0` are writable. -/
theorem test_wrS_with_every_raowi :
    cellsAfter (exec (.wrS 0#32) (stateOf
      { c0 with
        supportsLegacyInterrupts := false, eoiModeNsRaowi := true, eoiModeSRaowi := true, irqBypDisGrp1Raowi := true,
        fiqBypDisGrp1Raowi := true, irqBypDisGrp0Raowi := true, fiqBypDisGrp0Raowi := true, fiqEnRaowi := true }
      0x7FB#32 Inputs.low [])) = some (cellsOf 0x7E8#32) := by decide

/-- V18. -/
theorem test_rd1s_packs_layout3 : answerOf (exec .rd1s (stateOf c1 0x212#32 Inputs.low [])) = some 0x212#32 := by decide

/-- V20. -/
theorem test_wr1s_does_not_reach_eoiModeNs :
    cellsAfter (exec (.wr1s 0xFFFFFFFF#32) (stateOf c1 0#32 Inputs.low [])) = some (cellsOf 0x3FB#32) := by decide

/-- V23. -/
theorem test_absent_register :
    answerOf (exec .rdAbsent (stateOf cA 0x7FB#32 Inputs.low [])) = some 0#32 ∧
    cellsAfter (exec (.wrAbsent 0xFFFFFFFF#32) (stateOf cA 0#32 Inputs.low [])) = some (cellsOf 0#32) := by decide

/-- V61: the Non-secure view's stored reserved cells are its own. -/
theorem test_stored_reserved_cells :
    (match exec (.wrNs 0xFFFFFFFF#32) (stateOf cStored 0#32 Inputs.low []) with
      | .next t => some (answerOf (exec .rdNs t), answerOf (exec .rdS t))
      | _ => none) = some (some 0xFFFFFFFF#32, some 0x582#32) := by decide

/-! ### Reset and the environment -/

/-- V34, V37: the cells after reset. -/
theorem test_reset_event :
    cellsAfter (step (stateOf c0 3#32 Inputs.low [⟨0, .reset⟩])) = some unknownCells ∧
    cellsAfter (step (stateOf { c0 with eoiModeNsRaowi := true } 0x400#32 Inputs.low [⟨0, .reset⟩])) =
      some { unknownCells with eoiModeNs := .known true } := by decide

/-- V40. -/
theorem test_clearing_dib_forgets :
    cellsAfter (step (stateOf { c0 with fiq0RaowiSource := .dfb } 0#32 (el3 true false) [⟨0, .setInput .dib false⟩])) =
      some { cellsOf 0#32 with irqBypDisGrp1 := .unknown, irqBypDisGrp0 := .unknown } := by decide

/-- V39: setting `DIB` keeps and hides the cell. -/
theorem test_setting_dib_keeps_the_cell :
    cellsAfter (step (stateOf c0 0x100#32 (el3 false false) [⟨0, .setInput .dib true⟩])) = some (cellsOf 0x100#32) := by
  decide

/-- V42. -/
theorem test_cbpr_other_name :
    cellsAfter (step (stateOf c0 0#32 Inputs.low [⟨0, .writeCbprEl1ns true⟩])) = some (cellsOf 0x10#32) := by decide

/-- V44, V45, V48. -/
theorem test_bus_refusals :
    refusalAfter (step (stateOf c0 0#32 Inputs.low [⟨0, .bus ⟨.read, 0, 8, false⟩⟩])) = some .widthOrAlignment ∧
    refusalAfter (step (stateOf c0 0#32 Inputs.low [⟨0, .bus ⟨.read, 0, 1, true⟩⟩])) = some .widthOrAlignment ∧
    refusalAfter (step (stateOf c0 0#32 Inputs.low [⟨0, .bus ⟨.read, 2, 4, false⟩⟩])) = some .widthOrAlignment ∧
    refusalAfter (step (stateOf c0 0#32 Inputs.low [⟨0, .bus ⟨.read, 4, 4, false⟩⟩])) = some .otherOffset := by decide

/-- V46, the three values of `SRE_ACCESS`. -/
theorem test_access_while_sre :
    refusalAfter (step (stateOf c0 3#32 { Inputs.low with sre := true } (busAt0 .read false))) = some .sreEnabled ∧
    answerOf (step (stateOf { c0 with sreAccess := .razWi } 3#32 { Inputs.low with sre := true } (busAt0 .read false))) =
      some 0#32 ∧
    answerOf (step (stateOf { c0 with sreAccess := .normal } 3#32 { Inputs.low with sre := true } (busAt0 .read false))) =
      some 3#32 := by decide

/-- V22: with no Security split `NS` is not looked at; with one, it selects the view. -/
theorem test_bus_view_selection :
    answerOf (step (stateOf c1 0x20B#32 Inputs.low (busAt0 .read false))) = some 0x20B#32 ∧
    answerOf (step (stateOf c1 0x20B#32 Inputs.low (busAt0 .read true))) = some 0x20B#32 ∧
    answerOf (step (stateOf c0 0x403#32 Inputs.low (busAt0 .read true))) = some 0x201#32 ∧
    answerOf (step (stateOf c0 0x403#32 Inputs.low (busAt0 .read false))) = some 0x403#32 := by decide

/-- V47. -/
theorem test_view_not_of_this_configuration :
    refusalAfter (step (stateOf c0 0#32 Inputs.low [⟨0, .present [0x00#8, 0x00#8, 0x03#8]⟩])) = some .viewNotProduced := by
  decide

/-! ### Outputs -/

/-- V50 to V52. -/
theorem test_signals :
    maySignal (stateOf c0 3#32 Inputs.low []) 0 .grp0 .fiq = some false ∧
    maySignal (stateOf c0 3#32 Inputs.low []) 0 .grp0 .irq = some true ∧
    maySignal (stateOf c0 0xB#32 Inputs.low []) 0 .grp0 .fiq = some true ∧
    maySignal (stateOf c0 9#32 Inputs.low []) 0 .grp1 .irq = some false ∧
    groupSignal (stateOf c0 0xB#32 Inputs.low []) 0 .grp1 = some (.known .irq) ∧
    maySignal (stateOf c0 0xB#32 { Inputs.low with sre := true } []) 0 .grp0 .fiq = none ∧
    maySignal (stateOf cA 0xB#32 Inputs.low []) 0 .grp0 .fiq = none := by decide

/-- V53 to V56. -/
theorem test_bypass :
    bypass (stateOf c0 0x140#32 { Inputs.low with irqSignallingDisabled := true } []) 0 .irq .grp1 = .notSignalled ∧
    bypass (stateOf c0 0#32 { Inputs.low with irqSignallingDisabled := true } []) 0 .irq .grp0 = .mayBeSignalled ∧
    bypass (stateOf c0 0x140#32 { Inputs.low with irqSignallingDisabled := true, sreEl1 := true } []) 0 .irq .grp1 =
      .notStated ∧
    bypass (stateOf { c0 with fiq0RaowiSource := .dfb } 0#32 { el3 false true with fiqSignallingDisabled := true } []) 0
      .fiq .grp0 = .notSignalled ∧
    bypass (stateOf { c0 with fiq0RaowiSource := .dib } 0#32 { el3 false true with fiqSignallingDisabled := true } []) 0
      .fiq .grp0 = .mayBeSignalled := by decide

/-- V57, V58. -/
theorem test_end_of_interrupt :
    endAnswers (stateOf c0 0x400#32 Inputs.low []) 0 true .dir true = [.ok ⟨false, true⟩] ∧
    endAnswers (stateOf c0 0x400#32 Inputs.low []) 0 false .dir false = [.error .dirUnpredictable] ∧
    endAnswers (stateOf c0 0x400#32 Inputs.low []) 0 true .eoir true = [.ok ⟨true, false⟩] ∧
    eoiModeFor (stateOf c1 0x200#32 Inputs.low []) 0 true = some (.known true) := by decide

/-- V59, V60. -/
theorem test_binary_point :
    binaryPointFor (stateOf c0 0x10#32 Inputs.low []) 0 .grp1 = some (.known .bpr) ∧
    binaryPointFor (stateOf c0 0#32 Inputs.low []) 0 .grp1 = some (.known .abpr) ∧
    binaryPointFor (stateOf c0 0#32 Inputs.low []) 0 .grp0 = some (.known .bpr) := by decide

/-! ### Witnesses: for each statement with hypotheses, a state and operands that meet all of them -/

/-- C0 with the cells of P1's end and the events to come. -/
def w0 (q : List Event) : State := stateOf c0 0x60B#32 Inputs.low q

/-- The register copy of `w0`. -/
def u0 : CpuIface := cpuOf 0x60B#32 Inputs.low

/-- Two PEs. -/
def w2 (q : List Event) : State := { stateOf { c0 with nPe := 2 } 0x60B#32 Inputs.low q with cpus := [u0, cpuOf 0#32 Inputs.low] }

theorem knownIn_cpuOf (c : Config) (n : Word) (x : Inputs) (v : View) : (cpuOf n x).KnownIn c v := by
  intro f _
  unfold eff
  split
  · exact ⟨true, rfl⟩
  · cases f <;> exact ⟨_, rfl⟩

theorem witness_DecodedBytesAreTheEncoding : decode [0x00#8, 0x00#8, 0x02#8, 0x55#8] = .ok (.rdS, [0x55#8]) := by decide

/-- A presented view of another configuration, and one of this. -/
theorem witness_EightOperationsAndWhereTheyOccur :
    (w0 [⟨0, .present [0x00#8, 0x00#8, 0x03#8]⟩]).cpus[0]? = some u0 ∧
    decode [0x00#8, 0x00#8, 0x03#8] = .ok (.rd1s, []) ∧ Instr.rd1s.occursIn c0 = false := by decide

/-- The configurations of its third clause: absent, single, banked, and each through `raz_wi`. -/
theorem witness_selected_views :
    selectView cA Inputs.low true = .absent ∧ selectView c1 Inputs.low true = .oneState ∧
    selectView { c1 with sreAccess := .razWi } { Inputs.low with sre := true } true = .absent ∧
    selectView c0 Inputs.low true = .ns ∧ selectView c0 Inputs.low false = .s ∧
    selectView { c0 with sreAccess := .razWi } { Inputs.low with sre := true } false = .absent := by decide

theorem witness_OnlyOccurringOperationsRun :
    accessInstr (w0 []) (.bus ⟨.write 1#32, 0, 4, true⟩) = some (.ok (.wrNs 1#32)) ∧
    accessInstr (w0 []) (.present [0x00#8, 0x00#8, 0x02#8]) = some (.ok .rdS) := by decide

/-- Each outcome of a presented descriptor. -/
theorem witness_StepRunsThePresentedOperation :
    (w0 [⟨0, .present [0x00#8, 0x00#8, 0x02#8]⟩]).cpus[0]? = some u0 ∧
    answerOf (step (w0 [⟨0, .present [0x00#8, 0x00#8, 0x02#8]⟩])) = some 0x60B#32 ∧
    refusalAfter (step (w0 [⟨0, .present [0x04#8, 0x00#8, 0x02#8]⟩])) = some .otherOffset ∧
    refusalAfter (step (w0 [⟨0, .present [0x00#8]⟩])) = some (.badDescriptor .truncated) ∧
    refusalAfter (step (w0 [⟨0, .present [0x00#8, 0x00#8, 0x08#8]⟩])) = some (.badDescriptor .paddingNotZero) ∧
    refusalAfter (step (w0 [⟨0, .present [0x00#8, 0x00#8, 0x03#8]⟩])) = some .viewNotProduced ∧
    refusalAfter (step (stateOf c0 3#32 { Inputs.low with sre := true } [⟨0, .present [0x00#8, 0x00#8, 0x02#8]⟩])) =
      some .sreEnabled := by decide

/-- The offsets at both ends of the range that is refused. -/
theorem witness_DescriptorOfAnotherOffsetIsRefused :
    (Descriptor.mk 0x20001#19 none).data.isSome = (0x20001#19).getLsbD 18 ∧ (0x20001#19).extractLsb' 0 16 ≠ 0x0000#16 ∧
    (Descriptor.mk 0x6FFFF#19 (some 3#32)).data.isSome = (0x6FFFF#19).getLsbD 18 ∧
    (0x6FFFF#19).extractLsb' 0 16 ≠ 0x0000#16 ∧
    refusalAfter (step (w0 [⟨0, .present (Descriptor.mk 0x6FFFF#19 (some 3#32)).bytes⟩])) = some .otherOffset := by decide

/-- Its five outcomes have a witness each in `test_bus_refusals`, `test_access_while_sre` and `test_bus_view_selection`. -/
theorem witness_BusAccessFollowsViewSelection :
    (w0 (busAt0 .read true)).queue = [⟨0, .bus ⟨.read, 0, 4, true⟩⟩] ∧ (w0 (busAt0 .read true)).cpus[0]? = some u0 := by
  decide

/-- The boundary offsets 1 and 3. -/
theorem witness_AccessInsideTheWordRefused :
    c0.wf = true ∧ (w0 [⟨0, .bus ⟨.read, 1, 2, true⟩⟩]).cpus[0]? = some u0 ∧
    refusalAfter (step (w0 [⟨0, .bus ⟨.read, 1, 2, true⟩⟩])) = some .widthOrAlignment ∧
    refusalAfter (step (w0 [⟨0, .bus ⟨.read, 3, 4, true⟩⟩])) = some .widthOrAlignment := by decide

theorem witness_IdleStepAndMissingPe :
    (w0 []).queue = [] ∧ (w0 [⟨1, .reset⟩]).cpus.length ≤ 1 ∧
    refusalAfter (step (w0 [⟨1, .reset⟩])) = some .noSuchPe := by decide

/-- The hypothesis of the operations' statements: the served PE has a register copy, the layout is well formed. -/
theorem witness_operations : (w0 []).current = some u0 ∧ (w0 []).cfg.layout.wf = true := by decide

/-- The extreme layouts the source's order allows. -/
theorem witness_layout_extremes :
    ({ nsEoiModeNs := 30, nsFiqBypDisGrp1 := 27, sGap := 21, oneGap := 22 } : Layout).wf = true ∧
    ({ nsEoiModeNs := 5, nsFiqBypDisGrp1 := 2, sGap := 1, oneGap := 1 } : Layout).wf = true := by decide

theorem witness_StepChangesOnlyItsOwnPe :
    isNext (step (w2 [⟨1, .reset⟩])) = true ∧
    cellsAfter (step (w2 [⟨1, .reset⟩])) = some u0.cells := by decide

/-- Its two cases of an absent register, a read and a write each. -/
theorem witness_AbsentRegisterIsRes0 :
    (cA.hasLegacy = false ∧ ¬ (Inputs.low.sre = true ∧ cA.sreAccess = .refuse)) ∧ cA.wf = true ∧
    isNext (step (stateOf cA 3#32 Inputs.low (busAt0 (.write 7#32) true))) = true ∧
    answerOf (step (stateOf cA 3#32 Inputs.low (busAt0 .read true))) = some 0#32 ∧
    cellsAfter (step (stateOf { c0 with sreAccess := .razWi } 3#32 { Inputs.low with sre := true }
      (busAt0 (.write 0#32) false))) = some (cellsOf 3#32) := by decide

/-- A field that is RAO/WI and one that is not, at their positions. -/
theorem witness_RaowiFieldReadsOneAndKeepsItsCell :
    (stateOf c0 0#32 (el3 true false) []).current = some (cpuOf 0#32 (el3 true false)) ∧ c0.layout.wf = true ∧
    pos c0.layout .ns .irqBypDisGrp1 = some 6 ∧ raowi c0 (el3 true false) .irqBypDisGrp1 = true ∧
    pos c0.layout .ns .fiqBypDisGrp1 = some 5 ∧ raowi c0 (el3 true false) .fiqBypDisGrp1 = false := by decide

/-- Two states whose cells differ under a RAO/WI field only: every effective value agrees. -/
theorem witness_outputs_act_on_effective_values :
    (stateOf c0 0#32 (el3 true true) []).cpus[0]? = some (cpuOf 0#32 (el3 true true)) ∧
    (stateOf c0 0x100#32 (el3 true true) []).cpus[0]? = some (cpuOf 0x100#32 (el3 true true)) ∧
    cellsOf 0#32 ≠ cellsOf 0x100#32 ∧
    allFields.all (fun f => eff c0 (cpuOf 0#32 (el3 true true)) f = eff c0 (cpuOf 0x100#32 (el3 true true)) f) = true := by
  decide

theorem witness_WriteAbsentIsDropped : (stateOf cA 3#32 Inputs.low []).cfg.hasLegacy = false := by decide

theorem witness_SharedFieldsAreOneCellInBothViews :
    (w0 []).current = some u0 ∧ c0.layout.wf = true ∧ pos c0.layout .ns .enableGrp1 = some 0 ∧
    pos c0.layout .s .enableGrp1 = some 1 := by decide

/-- With hardwired and with stored reserved bits. -/
theorem witness_ReadAfterWriteReturnsTheWord :
    (w0 []).current = some u0 ∧ c0.layout.wf = true ∧ (stateOf cStored 0#32 Inputs.low []).current ≠ none ∧
    cStored.layout.wf = true := by decide

/-- A known field, an UNKNOWN one beside it, and a reserved bit. -/
theorem witness_TwoReadsReturnTheSameValue :
    (stateOf c0 3#32 Inputs.low []).current = some (cpuOf 3#32 Inputs.low) ∧ c0.layout.wf = true ∧
    pos c0.layout .s .enableGrp0 = some 0 ∧ eff c0 (cpuOf 3#32 Inputs.low) .enableGrp0 = .known true ∧
    allFields.all (fun f => pos c0.layout .s f ≠ some 2) = true ∧ c0.res0Mode = .hardwired ∧
    cStored.res0Mode = .stored ∧ (cpuOf 3#32 Inputs.low).reserved .s = .known 0#32 := by decide

theorem witness_WritingBackTheReadWordChangesNothing :
    (w0 []).Inv ∧ (w0 []).current = some u0 ∧ u0.KnownIn c0 .s ∧
    (c0.res0Mode = .stored → ∃ w, u0.reserved .s = .known w) :=
  ⟨by decide, by decide, knownIn_cpuOf c0 _ _ _, fun _ => ⟨0#32, rfl⟩⟩

/-- P3: a writable field, its cell known, its bit masked or not. -/
theorem witness_SetbAndClrbChangeTheMaskedBits :
    (stateOf c1 3#32 Inputs.low []).cpus[0]? = some (cpuOf 3#32 Inputs.low) ∧ c1.wf = true ∧
    pos c1.layout .oneState .eoiModeS = some 9 ∧ raowi c1 Inputs.low .eoiModeS = false ∧
    (cpuOf 3#32 Inputs.low).cells.get .eoiModeS = .known false ∧
    cellsAfterRun (runLines 0 (setb .oneState 0 0x200#32) vars0 (stateOf c1 3#32 Inputs.low [])) = some (cellsOf 0x203#32) ∧
    cellsAfterRun (runLines 0 (clrb .oneState 0 0x2#32) vars0 (stateOf c1 0x203#32 Inputs.low [])) =
      some (cellsOf 0x201#32) := by decide

/-- V46 under the three values of `SRE_ACCESS`, and V47: the lines of `setb` go through R51's checks. -/
theorem witness_setb_refusals :
    refusalAfterRun (runLines 0 (setb .s 0 8#32) vars0 (stateOf c0 3#32 { Inputs.low with sre := true } [])) =
      some .sreEnabled ∧
    cellsAfterRun (runLines 0 (setb .s 0 8#32) vars0
      (stateOf { c0 with sreAccess := .razWi } 3#32 { Inputs.low with sre := true } [])) = some (cellsOf 3#32) ∧
    cellsAfterRun (runLines 0 (setb .s 0 8#32) vars0
      (stateOf { c0 with sreAccess := .normal } 3#32 { Inputs.low with sre := true } [])) = some (cellsOf 0xB#32) ∧
    refusalAfterRun (runLines 0 (setb .oneState 0 8#32) vars0 (stateOf c0 3#32 Inputs.low [])) =
      some .viewNotProduced := by decide

/-- P3's last sentence: a write of the other name of `CBPR` between the two lines is overwritten, and is served. -/
theorem test_event_between_the_lines :
    cellsAfterRun (runProgram 0
      [.line (.rd .oneState 0), .other ⟨0, .writeCbprEl1ns true⟩, .line (.wr .oneState (.varOr 0 0x200#32))] vars0
      (stateOf c1 3#32 Inputs.low [])) = some (cellsOf 0x203#32) ∧
    cellsAfterRun (runProgram 0 [.line (.rd .oneState 0), .other ⟨0, .writeCbprEl1ns true⟩] vars0
      (stateOf c1 3#32 Inputs.low [])) = some (cellsOf 0x13#32) := by decide

theorem witness_ReadModifyWriteUndoesAWriteBetween :
    (w0 []).current = some u0 ∧ (w0 []).cpus[0]? = some u0 ∧ c0.wf = true ∧ c0.layout.wf = true ∧ c0.hasLegacy = true ∧
    c0.banked = true ∧ u0.inputs.sre = false ∧ u0.KnownIn c0 .s :=
  ⟨by decide, by decide, by decide, by decide, by decide, by decide, by decide, knownIn_cpuOf c0 _ _ _⟩

theorem witness_FiqSourceReadingsAgreeWhenDibIsDfb :
    (∀ u ∈ (stateOf c0 0#32 (el3 true true) []).cpus, u.inputs.dib = u.inputs.dfb) ∧
    isNext (exec .rdS (stateOf c0 0#32 (el3 true true) [])) = true := by decide

theorem witness_ResetEventSetsEveryCell : (w0 [⟨0, .reset⟩]).cpus[0]? = some u0 := by decide

/-- An input that ends RAO/WI, and one of the four that change no cell. -/
theorem witness_InputStepForgetsOnlyEndedRaowiCells :
    (stateOf c0 0#32 (el3 true false) [⟨0, .setInput .dib false⟩]).cpus[0]? = some (cpuOf 0#32 (el3 true false)) ∧
    raowi c0 (el3 true false) .irqBypDisGrp0 = true ∧ raowi c0 ((el3 true false).set false .dib) .irqBypDisGrp0 = false ∧
    (w0 [⟨0, .setInput .sre true⟩]).cpus[0]? = some u0 := by decide

theorem witness_CbprIsOneCellWithItsOtherName :
    (w0 [⟨0, .writeCbprEl1ns true⟩]).cpus[0]? = some u0 ∧ (w0 []).current = some u0 ∧ c0.hasLegacy = true := by decide

theorem witness_BuildRejectsIllFormedConfigurations : (State.build c0 Inputs.low).isSome = true := by decide

theorem witness_EveryStepKeepsTheInvariant :
    (w0 (busAt0 (.write 0xFFFFFFFF#32) false)).Inv ∧ isNext (step (w0 (busAt0 (.write 0xFFFFFFFF#32) false))) = true := by
  decide

/-- Each of its four causes changes a cell. -/
theorem witness_CellChangesOnlyForAStatedCause :
    cellsAfter (step (w0 [⟨0, .reset⟩])) ≠ some u0.cells ∧
    cellsAfter (step (w0 (busAt0 (.write 0#32) true))) ≠ some u0.cells ∧
    cellsAfter (step (stateOf c0 0#32 (el3 true false) [⟨0, .setInput .dib false⟩])) ≠ some (cellsOf 0#32) ∧
    cellsAfter (step (w0 [⟨0, .writeCbprEl1ns true⟩])) ≠ some u0.cells := by decide

theorem witness_NonSecureAccessKeepsSecureOnlyCells :
    c0.banked = true ∧ isNext (step (w0 (busAt0 (.write 0#32) true))) = true ∧ Field.enableGrp0 ∈ secureOnly := by decide

/-- Two states that differ in a Secure-only cell (`CBPR`), and an event that is no Secure read. -/
theorem witness_OnlySecureReadsRevealSecureOnlyCells :
    (w0 (busAt0 .read true)).NsEquiv (stateOf c0 0x61B#32 Inputs.low (busAt0 .read true)) ∧ c0.banked = true ∧
    accessInstr ((w0 (busAt0 .read true)).turn 0) (.bus ⟨.read, 0, 4, true⟩) ≠ some (.ok .rdS) ∧
    busInstr ⟨.read, 0, 4, true⟩ (w0 []) = .ok .rdNs := by
  refine ⟨⟨rfl, rfl, rfl, rfl, rfl, rfl, ?_⟩, by decide, by decide, by decide⟩
  intro p u w hu hw
  match p with
  | 0 =>
    cases hu
    cases hw
    exact ⟨by decide, rfl, rfl⟩
  | _ + 1 => cases hu

/-- A queue with a Secure write, a presented `RD.NS`, a Non-secure read and a reset, but no Secure read. -/
theorem witness_RunsWithoutSecureReadsRevealNothing :
    (∀ e ∈ (w0 (busAt0 (.write 3#32) false ++ [⟨0, .present [0#8, 0#8, 1#8]⟩] ++ busAt0 .read true ++ [⟨0, .reset⟩])).queue,
      (match e.act with
        | .present bytes => decide ((decode bytes).toOption.map Prod.fst ≠ some .rdS)
        | .bus a => a.ns || decide (a.op ≠ .read)
        | _ => true) = true) ∧
    isNext (runSteps 4 (w0 (busAt0 (.write 3#32) false ++ [⟨0, .present [0#8, 0#8, 1#8]⟩] ++ busAt0 .read true ++ [⟨0, .reset⟩]))) = true := by decide

theorem witness_AccessesWriteNoInput : isNext (exec (.wrS 0xFFFFFFFF#32) (w0 [])) = true ∧ (w0 []).cpus[0]? = some u0 := by
  decide

/-- The hypotheses of the outputs' statements, with each value of a field: 0, 1 and UNKNOWN. -/
theorem witness_outputs :
    (w0 []).cpus[0]? = some u0 ∧ c0.hasLegacy = true ∧ u0.inputs.sre = false ∧
    eff c0 u0 .enableGrp0 = .known true ∧ eff c0 u0 .enableGrp1 = .known true ∧ eff c0 u0 .cbpr = .known false ∧ eff c0 u0 .fiqEn = .known true ∧
    eff c0 { u0 with cells := unknownCells } .fiqEn = .unknown ∧ eff c0 (cpuOf 0x10#32 Inputs.low) .cbpr = .known true ∧
    eff c0 (cpuOf 0#32 Inputs.low) .enableGrp0 = .known false ∧ eff c0 (cpuOf 0#32 Inputs.low) .enableGrp1 = .known false ∧
    eff c0 (cpuOf 0#32 Inputs.low) .fiqEn = .known false ∧ eff c0 { u0 with cells := unknownCells } .cbpr = .unknown := by
  decide

/-- The three EOI modes of its clauses, and both layouts of its first part. -/
theorem witness_EoiModeGovernsTheEndOfInterrupt :
    eoiModeFor (w0 []) 0 true = some (.known true) ∧ eoiModeFor (stateOf c1 0#32 Inputs.low []) 0 true = some (.known false) ∧
    eoiModeFor State.reset 0 false = some .unknown ∧ c0.banked = true ∧ c1.banked = false ∧
    eoiModeFor (stateOf { c0 with eoiModeNsRaowi := true } 0#32 Inputs.low []) 0 true = some (.known true) ∧
    eoiModeFor (stateOf { c0 with eoiModeSRaowi := true } 0#32 Inputs.low []) 0 false = some (.known true) ∧
    eoiModeFor (stateOf { c1 with eoiModeSRaowi := true } 0#32 Inputs.low []) 0 true = some (.known true) := by decide

/-- The three answers about a bypass signal are in `test_bypass`; the hypotheses are those of `witness_outputs`. -/
theorem witness_BypassFieldGatesTheBypassSignal :
    (stateOf c0 0x140#32 { Inputs.low with irqSignallingDisabled := true } []).cpus[0]? =
      some (cpuOf 0x140#32 { Inputs.low with irqSignallingDisabled := true }) ∧ c0.hasLegacy = true ∧
    (cpuOf 0x140#32 { Inputs.low with irqSignallingDisabled := true }).inputs.sre = false := by decide

end Sys2Proof.Tests
end

/-! ### R4: which configurations are built, and what is built meets the invariant -/

namespace Sys2Proof

/-- R4: a bypass parameter is 1 only without legacy interrupts. -/
theorem Config.bypassRaowiOk_iff (c : Config) :
    c.bypassRaowiOk = true ↔
      (c.irqBypDisGrp1Raowi = true ∨ c.fiqBypDisGrp1Raowi = true ∨ c.irqBypDisGrp0Raowi = true ∨
        c.fiqBypDisGrp0Raowi = true → c.supportsLegacyInterrupts = false) := by
  rw [Config.bypassRaowiOk]
  cases c.supportsLegacyInterrupts <;> simp [and_assoc]

theorem Config.fiqEnRaowiOk_iff (c : Config) :
    c.fiqEnRaowiOk = true ↔ (c.fiqEnRaowi = true → c.twoSecurityStates = true) := by
  rw [Config.fiqEnRaowiOk]
  cases c.fiqEnRaowi <;> simp

theorem Config.bankedOk_iff (c : Config) :
    c.bankedOk = true ↔ (c.banked = true → c.twoSecurityStates = true) := by
  rw [Config.bankedOk]
  cases c.banked <;> simp

theorem Config.baseOk_iff (c : Config) : c.baseOk = true ↔ c.giccBase % 4 = 0 := decide_eq_true_iff

theorem Config.nPeOk_iff (c : Config) : c.nPeOk = true ↔ 0 < c.nPe := decide_eq_true_iff

/-- The constraints on a configuration, each as a statement (R4, R42, R16 to R18). -/
theorem Config.wf_iff (c : Config) :
    c.wf = true ↔
      ((c.irqBypDisGrp1Raowi = true ∨ c.fiqBypDisGrp1Raowi = true ∨ c.irqBypDisGrp0Raowi = true ∨
          c.fiqBypDisGrp0Raowi = true → c.supportsLegacyInterrupts = false) ∧
        (c.fiqEnRaowi = true → c.twoSecurityStates = true) ∧ (c.banked = true → c.twoSecurityStates = true) ∧
        c.giccBase % 4 = 0 ∧ 0 < c.nPe ∧ c.layout.wf = true) := by
  rw [← c.bypassRaowiOk_iff, ← c.fiqEnRaowiOk_iff, ← c.bankedOk_iff, ← c.baseOk_iff, ← c.nPeOk_iff]
  simp only [Config.wf, Bool.and_eq_true, and_assoc]

namespace Machine

/-- A reset leaves 1 in every statically RAO/WI cell (R31). -/
theorem CpuIface.reset_raowiCellsHoldOne (c : Config) (u : CpuIface) : (u.reset c).RaowiCellsHoldOne c := by
  intro f _ hf
  rw [CpuIface.reset_get, resetCell, if_pos hf]

/-- A reset value of reserved cells is one they may hold, in both `RES0_MODE`s (R30, R31). -/
theorem reservedOk_resetReserved (c : Config) (v : View) : reservedOk c v (resetReserved c) = true := by
  unfold reservedOk resetReserved
  cases c.res0Mode <;> simp

/-- A reset leaves every view's reserved cells well-formed. -/
theorem CpuIface.reset_reservedWf (c : Config) (u : CpuIface) : (u.reset c).ReservedWf c := by
  intro v hv
  have hne : v ≠ .absent := by rintro rfl; simp at hv
  rw [CpuIface.reset_reserved c u v hne]
  exact reservedOk_resetReserved c v

/-- A run of a configuration of the hardware starts in the invariant: every copy has just been reset (R90). -/
theorem State.init_inv {c : Config} (h : c.wf = true) (x : Inputs) : (State.init c x).Inv := by
  obtain ⟨-, -, -, -, hpe, -⟩ := c.wf_iff.1 h
  refine ⟨h, List.length_replicate, hpe, fun u hu => ?_⟩
  rw [List.eq_of_mem_replicate hu]
  exact ⟨CpuIface.reset_raowiCellsHoldOne c _, CpuIface.reset_reservedWf c _⟩

theorem State.build_isSome (c : Config) (x : Inputs) : (State.build c x).isSome = c.wf := by
  rw [State.build]
  cases c.wf <;> rfl

/-- What is built is the start of a run of a configuration of the hardware. -/
theorem State.build_eq_some_iff {c : Config} {x : Inputs} {s : State} :
    State.build c x = some s ↔ c.wf = true ∧ State.init c x = s := by
  rw [State.build, Option.ite_none_right_eq_some, Option.some.injEq]

@[simp] theorem raowi_cbpr (c : Config) (x : Inputs) : raowi c x .cbpr = false := rfl

@[simp] theorem raowi_enableGrp1 (c : Config) (x : Inputs) : raowi c x .enableGrp1 = false := rfl

@[simp] theorem raowi_enableGrp0 (c : Config) (x : Inputs) : raowi c x .enableGrp0 = false := rfl

/-- Settles O35: `State.build` tests `Config.wf`, whose conjuncts are the listed constraints, and `State.init` meets the
invariant because every copy has just been reset. -/
theorem buildRejectsIllFormedConfigurations : Obligations.BuildRejectsIllFormedConfigurations := by
  intro c x
  refine ⟨?_, ?_, raowi_cbpr c x, raowi_enableGrp1 c x, raowi_enableGrp0 c x⟩
  · rw [State.build_isSome]
    exact c.wf_iff
  · intro s hs
    obtain ⟨hwf, rfl⟩ := State.build_eq_some_iff.1 hs
    exact ⟨rfl, State.init_inv hwf x⟩

end Machine

end Sys2Proof

/-! ### R19: RAO/WI fields at an access, and outputs as functions of the effective values -/

namespace Sys2Proof.Machine

/-- A field that no input makes RAO/WI is RAO/WI as the implementation made it (R19). -/
theorem raowi_of_not_dynamic {c : Config} {x : Inputs} {f : Field} (h : dynamicRaowi c x f = false) :
    raowi c x f = staticRaowi c f := by
  rw [raowi, h, Bool.or_false]

/-- The absent register holds no field. -/
theorem ne_absent_of_pos {l : Layout} {v : View} {f : Field} {p : Nat} (hp : pos l v f = some p) : v ≠ .absent := by
  rintro rfl
  cases hp

/-- A read through a view that holds a field returns its effective value at its position, an UNKNOWN one drawing that
bit (R19, R52). -/
theorem exec_rdInstr_getLsbD_at {s : State} {u : CpuIface} {v : View} {f : Field} {p : Nat}
    (hwf : s.cfg.layout.wf = true) (hu : s.current = some u) (hp : pos s.cfg.layout v f = some p) :
    ∃ t r, exec (rdInstr v) s = .next t ∧ t.resp = some r ∧
      r.getLsbD p = (eff s.cfg u f).get ((Config.freeWord s.draws).getLsbD p) := by
  have hexec := (exec_rdInstr (ne_absent_of_pos hp) s).trans (readView_of_current v hu)
  exact ⟨_, _, hexec, rfl, getLsbD_pack_at hwf u _ hp⟩

/-- A write through a view replaces the served copy by the written one. -/
theorem exec_wrInstr_current {s : State} {u : CpuIface} {v : View} (hv : v ≠ .absent) (d : Word)
    (hu : s.current = some u) : ∃ t, exec (wrInstr d v) s = .next t ∧ t.current = some (u.write s.cfg v d) := by
  have hexec := (exec_wrInstr hv d s).trans (writeView_of_current v d hu)
  exact ⟨_, hexec, State.put_current _ hu⟩

/-- A write keeps the cell of a RAO/WI field, whether or not its view holds the field (R19). -/
theorem CpuIface.write_get_of_raowi {c : Config} {u : CpuIface} {f : Field} (h : raowi c u.inputs f = true) (v : View)
    (d : Word) : (u.write c v d).cells.get f = u.cells.get f := by
  rw [CpuIface.write_get]
  cases hp : pos c.layout v f with
  | none => exact writtenCell_off hp u d
  | some p => rw [writtenCell_at hp, if_pos h]

/-- What an output of a PE with a register copy acts on: the field's effective value, while the register is in use. -/
theorem effOutput_of_copy {s : State} {p : Nat} {u : CpuIface} (hu : s.cpus[p]? = some u) (f : Field) :
    effOutput s p f = if s.cfg.hasLegacy && !u.inputs.sre then some (eff s.cfg u f) else none := by
  simp only [effOutput, hu]

section
variable {s t : State} {p : Nat} (heff : ∀ f, effOutput s p f = effOutput t p f)
include heff

theorem signallingEnabled_congr (g : Group) : signallingEnabled s p g = signallingEnabled t p g := by
  cases g <;> exact heff _

theorem groupSignal_congr (g : Group) : groupSignal s p g = groupSignal t p g := by
  cases g <;> simp only [groupSignal, heff]

theorem binaryPointFor_congr (g : Group) : binaryPointFor s p g = binaryPointFor t p g := by
  cases g <;> simp only [binaryPointFor, heff]

theorem maySignal_congr (g : Group) (sig : Signal) : maySignal s p g sig = maySignal t p g sig := by
  simp only [maySignal, signallingEnabled_congr heff, groupSignal_congr heff]

/-- Beside the effective values, a bypass signal acts on the inputs of the PE's copy (R74 to R76). -/
theorem bypass_congr {u w : CpuIface} (hu : s.cpus[p]? = some u) (hw : t.cpus[p]? = some w) (hin : u.inputs = w.inputs)
    (sig : Signal) (g : Group) : bypass s p sig g = bypass t p sig g := by
  simp only [bypass, hu, hw, heff, hin]

/-- Beside the effective values, the configuration says which EOI mode field governs an access (R77). -/
theorem endAnswers_congr (hcfg : s.cfg = t.cfg) (ns : Bool) (r : EndRegister) (isWrite : Bool) :
    endAnswers s p ns r isWrite = endAnswers t p ns r isWrite := by
  simp only [endAnswers, eoiModeFor, heff, hcfg]

end

/-- Settles O21: R19's table by the static and the run-time part of `raowi`; a read packs `eff`, a write skips a RAO/WI
cell; and every output is a function of `effOutput`, which equal effective values determine. -/
theorem raowiFieldReadsOneAndKeepsItsCell : Obligations.RaowiFieldReadsOneAndKeepsItsCell := by
  refine ⟨fun c x => ?table, fun _ _ _ => rfl, fun s u v f p hwf hu hp => ⟨?read, fun d => ?write⟩,
    fun s t p u w hu hw hcfg hin heff => ?outputs⟩
  case table =>
    exact ⟨raowi_of_not_dynamic rfl, raowi_of_not_dynamic rfl, rfl, rfl, rfl, rfl, raowi_of_not_dynamic rfl,
      raowi_cbpr c x, raowi_enableGrp1 c x, raowi_enableGrp0 c x⟩
  case read => exact exec_rdInstr_getLsbD_at hwf hu hp
  case write =>
    obtain ⟨t, ht, hcur⟩ := exec_wrInstr_current (ne_absent_of_pos hp) d hu
    exact ⟨t, _, ht, hcur, fun h => CpuIface.write_get_of_raowi h v d⟩
  case outputs =>
    have hout : ∀ f, effOutput s p f = effOutput t p f := fun f => by
      rw [effOutput_of_copy hu, effOutput_of_copy hw, heff, hcfg, hin]
    exact ⟨fun g => ⟨signallingEnabled_congr hout g, groupSignal_congr hout g, binaryPointFor_congr hout g⟩,
      fun g sig => ⟨maySignal_congr hout g sig, bypass_congr hout hu hw hin sig g⟩, endAnswers_congr hout hcfg⟩

end Sys2Proof.Machine

/-! ### R50, R53: a descriptor that decodes is its operation's, and the matches of the eight operations -/

namespace Sys2Proof

/-- The code of a view is read as the view and back (R50). -/
theorem viewCode_viewOfCode (c : BitVec 2) : viewCode (viewOfCode c) = c := by
  revert c
  decide

/-- `AD` is its three parts: one with `OFFSET = 0` is made again from `W` and `VIEW` (R50). -/
theorem mkAd_of_offset_eq_zero {a : BitVec 19} (h : a.extractLsb' 0 16 = 0#16) :
    mkAd (a.getLsbD 18) (viewOfCode (a.extractLsb' 16 2)) 0#16 = a := by
  have hlow : ∀ k, k < 16 → a.getLsbD k = false := by
    intro k hk
    have hbit := congrArg (fun z => z.getLsbD k) h
    simpa [BitVec.getLsbD_extractLsb', hk] using hbit
  rw [mkAd, viewCode_viewOfCode]
  ext k hk
  have hlow := hlow k
  simp only [BitVec.getElem_or, BitVec.getElem_shiftLeft, BitVec.getElem_setWidth, BitVec.getLsbD_ofBool,
    BitVec.getLsbD_extractLsb']
  grind

/-- An operation's descriptor as numbers: `AD` is its row's match, and only a write has `DATA` (R53). -/
theorem Instr.descriptor_eq (i : Instr) :
    i.descriptor =
      ⟨BitVec.ofNat 19 (0x10000 * (viewCode i.view).toNat + (if i.data.isSome then 0x40000 else 0)), i.data⟩ := by
  rw [← mkAd_toNat, BitVec.ofNat_toNat, BitVec.setWidth_eq, Instr.descriptor]

/-- A descriptor that decodes has `OFFSET = 0` and `DATA` exactly for a write, so it is its operation's (R50, R53, R54). -/
theorem eq_descriptor_of_decodeDescriptor {d : Descriptor} {i : Instr} (h : decodeDescriptor d = .ok i) :
    d = i.descriptor := by
  obtain ⟨a, data⟩ := d
  rw [decodeDescriptor] at h
  split at h
  · cases h
  · next hoff =>
    have had := mkAd_of_offset_eq_zero (not_not.1 hoff)
    split at h
    · next hw hdata =>
      cases h
      cases hdata
      rw [Instr.descriptor, rdInstr_view, rdInstr_data, Option.isSome_none, ← hw, had]
    · next x hw hdata =>
      cases h
      cases hdata
      rw [Instr.descriptor, wrInstr_view, wrInstr_data, Option.isSome_some, ← hw, had]
    · cases h
    · cases h

/-- A descriptor decodes to an operation exactly if it is that operation's (R53). -/
theorem decodeDescriptor_eq_ok_iff {d : Descriptor} {i : Instr} : decodeDescriptor d = .ok i ↔ d = i.descriptor := by
  constructor
  · exact eq_descriptor_of_decodeDescriptor
  · rintro rfl
    exact decodeDescriptor_descriptor i

/-! ### R53: which operations can occur in a configuration -/

/-- Whether an operation can occur depends on its view alone (R53). -/
theorem Instr.occursIn_eq_of_view (c : Config) (i : Instr) : i.occursIn c = (rdInstr i.view).occursIn c := by
  cases i <;> rfl

/-- The views whose rows can occur in a configuration (R53). -/
theorem view_of_occursIn {c : Config} {v : View} (h : (rdInstr v).occursIn c = true) :
    (c.hasLegacy = false → v = .absent) ∧
    (c.hasLegacy = true → c.banked = false → v = .oneState ∨ (c.sreAccess = .razWi ∧ v = .absent)) ∧
    (c.hasLegacy = true → c.banked = true → v = .ns ∨ v = .s ∨ (c.sreAccess = .razWi ∧ v = .absent)) := by
  cases v <;> simp only [rdInstr, Instr.occursIn, Bool.or_eq_true, Bool.and_eq_true, Bool.not_eq_true',
    decide_eq_true_eq] at h
  case absent => rcases h with h | h <;> simp [h]
  all_goals
    obtain ⟨hl, hb⟩ := h
    simp [hl, hb]

namespace Machine

/-- The view R51 selects is one whose rows can occur in the configuration (R51, R53). -/
theorem occursIn_selectView (c : Config) (x : Inputs) (ns : Bool) : (rdInstr (selectView c x ns)).occursIn c = true := by
  rw [selectView]
  split_ifs with hl hr hb hns
  · simp [rdInstr, Instr.occursIn, hl]
  · simp [rdInstr, Instr.occursIn, hr.2]
  all_goals simp [rdInstr, Instr.occursIn, hl, hb]

/-- R51 makes no view of an operation that cannot occur in the configuration. -/
theorem producible_of_not_occursIn {c : Config} {i : Instr} (h : i.occursIn c = false) (x : Inputs) :
    producible c x i.view = false := by
  have hne : ∀ ns, i.view ≠ selectView c x ns := by
    intro ns hv
    rw [i.occursIn_eq_of_view, hv, occursIn_selectView] at h
    cases h
  simp only [producible, hne, decide_false, Bool.or_self]

/-! ### A step at an access event (R51, R53) -/

section
variable {s : State} {p : Nat} {u : CpuIface} {rest : List Event}

/-- A step at an event of a PE with a register copy serves its action for that PE. -/
theorem step_of_copy {act : Action} (hq : s.queue = ⟨p, act⟩ :: rest) (hu : s.cpus[p]? = some u) :
    step s = serve act (s.turn p) := by
  obtain ⟨hlt, -⟩ := List.getElem?_eq_some_iff.1 hu
  simp only [step, hq, if_pos hlt]

/-- A step at a bus access runs what R51 makes of it under the PE's inputs. -/
theorem step_bus {a : BusAccess} (hq : s.queue = ⟨p, .bus a⟩ :: rest) (hu : s.cpus[p]? = some u) :
    step s = runAccess (busInstrUnder s.cfg u.inputs a) (s.turn p) := by
  rw [step_of_copy hq hu]
  simp only [serve, busInstr, State.turn_current, hu, State.turn_cfg]

/-- A step at a presented descriptor that decodes runs the operation if it passes the check of R47 and R53. -/
theorem step_present {bytes tail : List Byte} {i : Instr} (hq : s.queue = ⟨p, .present bytes⟩ :: rest)
    (hu : s.cpus[p]? = some u) (hd : decode bytes = .ok (i, tail)) :
    step s = runAccess (checkPresented s.cfg u.inputs i) (s.turn p) := by
  rw [step_of_copy hq hu]
  simp only [serve, presentedInstr, State.turn_current, hu, hd, State.turn_cfg]

end

/-- A refusal that a line of R47 or R51 gives ends the step where the line applies. -/
theorem runAccess_ite_error (b : Prop) [Decidable b] (r : Refusal) (e : Except Refusal Instr) (s : State) :
    runAccess (if b then .error r else e) s = if b then .refused r else runAccess e s := by
  split_ifs <;> rfl

/-- R51 line by line: the first that applies refuses the access, else it is the operation of the view selected. -/
theorem busInstrUnder_eq (c : Config) (x : Inputs) (a : BusAccess) :
    busInstrUnder c x a =
      if a.size ≠ 4 ∨ a.addr % 4 ≠ 0 then .error .widthOrAlignment
      else if a.addr ≠ c.giccBase then .error .otherOffset
      else if x.sre = true ∧ c.sreAccess = .refuse then .error .sreEnabled
      else .ok (opInstr (selectView c x a.ns) a.op) := by
  rw [busInstrUnder, selectAccess, Nat.add_zero]
  split_ifs
  · rfl
  · rfl
  · rfl
  · simp only [decodeDescriptor_mkAd]
    cases a.op <;> rfl

/-- An operation that cannot occur in the configuration fails the check of a presented descriptor (R47, R53; log 12). -/
theorem checkPresented_of_not_occursIn {c : Config} {i : Instr} (h : i.occursIn c = false) (x : Inputs) :
    checkPresented c x i =
      if x.sre = true ∧ c.sreAccess = .refuse then .error .sreEnabled else .error .viewNotProduced := by
  simp only [checkPresented, producible_of_not_occursIn h, Bool.false_eq_true, if_false]

/-- Settles O4: the matches from each operation's `W` and `VIEW`; the decoder's `↔` because those two determine an `AD`
with `OFFSET = 0`; and the views and the refusal because R51 selects only views whose rows can occur. -/
theorem eightOperationsAndWhereTheyOccur : Obligations.EightOperationsAndWhereTheyOccur := by
  refine ⟨fun d => ?rows, fun d i => decodeDescriptor_eq_ok_iff,
    fun c x ns => view_of_occursIn (occursIn_selectView c x ns), fun s p u bytes tail i rest hq hu hd ho => ?refusal⟩
  case rows =>
    simp [Instr.descriptor_eq, Instr.view, Instr.data, viewCode]
  case refusal =>
    rw [step_present hq hu hd, checkPresented_of_not_occursIn ho, runAccess_ite_error, apply_ite Host.Outcome.refused]
    rfl

/-- Settles O7: a step at a bus access runs what R51 makes of it, and each line of R51 that refuses ends the step. -/
theorem busAccessFollowsViewSelection : Obligations.BusAccessFollowsViewSelection := by
  intro s p u a rest hq hu
  rw [step_bus hq hu, busInstrUnder_eq]
  simp only [runAccess_ite_error]
  cases a.op <;> rfl

end Machine

end Sys2Proof

/-! ### R60, R61: the accesses through the Non-secure view -/

namespace Sys2Proof.Machine

/-- Layout 1 (R16): a bit that is none of the four positions holds no field of the Non-secure view. -/
theorem pos_ns_ne_some_iff {l : Layout} {k : Nat} :
    (∀ f, pos l .ns f ≠ some k) ↔
      k ≠ l.nsEoiModeNs ∧ k ≠ l.nsFiqBypDisGrp1 + 1 ∧ k ≠ l.nsFiqBypDisGrp1 ∧ k ≠ 0 := by
  constructor
  · exact fun h => ⟨fun e => h .eoiModeNs (congrArg some e.symm), fun e => h .irqBypDisGrp1 (congrArg some e.symm),
      fun e => h .fiqBypDisGrp1 (congrArg some e.symm), fun e => h .enableGrp1 (congrArg some e.symm)⟩
  · rintro ⟨h1, h2, h3, h4⟩ f
    cases f <;> simp only [pos, ne_eq, Option.some.injEq, reduceCtorEq, not_false_eq_true] <;> omega

/-- The reserved bits of a view are those at which it holds no field, in every layout (R16 to R18). -/
theorem getLsbD_mask_eq_false_iff {l : Layout} {v : View} {i : Nat} (hi : i < 32) :
    (mask l v).getLsbD i = false ↔ ∀ f, pos l v f ≠ some i := by
  rw [mask, placeAll, getLsbD_foldr_place l v _ allFields i hi]
  simp [mem_allFields]

/-- The bits of `DATA` outside a view's mask are those at which the view holds no field; `q` says which these are. -/
theorem getLsbD_and_not_mask {l : Layout} {v : View} {k : Nat} {q : Prop} [Decidable q] (d : Word) (hk : k < 32)
    (hq : (∀ f, pos l v f ≠ some k) ↔ q) : (d &&& ~~~mask l v).getLsbD k = (d.getLsbD k && decide q) := by
  rw [← getLsbD_mask_eq_false_iff hk] at hq
  simp [hk, ← hq]

/-- With `stored`, a write leaves the reserved bits of `DATA` in its view's reserved cells (R30). -/
theorem writtenReserved_of_stored {c : Config} (h : c.res0Mode = .stored) (old : Stored Word) (v : View) (d : Word) :
    writtenReserved c old v d = .known (d &&& ~~~mask c.layout v) := by
  simp only [writtenReserved, h]

/-- With `hardwired`, a write keeps its view's reserved cells (R30). -/
theorem writtenReserved_of_hardwired {c : Config} (h : c.res0Mode = .hardwired) (old : Stored Word) (v : View)
    (d : Word) : writtenReserved c old v d = old := by
  simp only [writtenReserved, h]

/-- What a write leaves in a cell of its view that is never RAO/WI: the written bit. -/
theorem writtenCell_of_not_raowi {c : Config} {u : CpuIface} {v : View} {f : Field} {p : Nat}
    (hp : pos c.layout v f = some p) (h : raowi c u.inputs f = false) (d : Word) :
    writtenCell c u v d f = .known (d.getLsbD p) := by
  simp [writtenCell_at hp, h]

/-- Settles O12: `RD.NS` packs Layout 1, whose four positions and reserved bits are read off one by one. -/
theorem readNsReturnsLayout1 : Obligations.ReadNsReturnsLayout1 := by
  refine ⟨by decide, fun s u hwf hu => ⟨_, readView_of_current .ns hu, fun k hk => ?bits⟩⟩
  dsimp only
  split_ifs with h1 h2 h3 h4
  case neg => exact getLsbD_pack_off u _ hk (pos_ns_ne_some_iff.2 ⟨h1, h2, h3, h4⟩)
  all_goals
    subst k
    exact getLsbD_pack_at hwf u _ rfl

/-- Settles O16: `WR.NS` replaces the served copy by the one written through Layout 1, whose cells are `writtenCell` and
whose reserved cells are `writtenReserved`. -/
theorem writeNsReachesLayout1 : Obligations.WriteNsReachesLayout1 := by
  intro s u data hu
  refine ⟨?row, _, writeView_of_current .ns data hu, ?cells, rfl, rfl, u.write_inputs _ _ _,
    fun h => writtenReserved_of_hardwired h _ _ _, fun h => ?stored⟩
  case row => simp [Instr.descriptor_eq, Instr.view, Instr.data, viewCode]
  case cells =>
    refine FieldTable.ext_get fun f => (u.write_get _ _ _ f).trans ?_
    cases f
    case eoiModeNs | irqBypDisGrp1 | fiqBypDisGrp1 => exact writtenCell_at rfl u data
    case enableGrp1 => exact writtenCell_of_not_raowi rfl (raowi_enableGrp1 _ _) data
    all_goals exact writtenCell_off rfl u data
  case stored =>
    exact ⟨_, writtenReserved_of_stored h _ _ _, fun k hk => getLsbD_and_not_mask data hk pos_ns_ne_some_iff⟩

end Sys2Proof.Machine

/-! ### R62, R63: the accesses through the Secure view -/

namespace Sys2Proof.Machine

/-- A position at which a view holds some field is not one at which it holds none. -/
theorem ne_of_pos_of_reserved {l : Layout} {v : View} {f : Field} {p k : Nat} (hp : pos l v f = some p)
    (hk : ∀ g, pos l v g ≠ some k) : k ≠ p := by
  rintro rfl
  exact hk f hp

/-- Layout 2 (R17): its fields stand at bits 0 and 1 and at the eight bits from `sGap + 2` to `sGap + 9`, so a bit holds
none exactly if it lies in the lower or the upper reserved run. -/
theorem pos_s_ne_some_iff {l : Layout} {k : Nat} :
    (∀ f, pos l .s f ≠ some k) ↔ 1 < k ∧ (k < l.sGap + 2 ∨ l.sGap + 9 < k) := by
  constructor
  · intro h
    have h0 := ne_of_pos_of_reserved (f := .enableGrp0) rfl h
    have h1 := ne_of_pos_of_reserved (f := .enableGrp1) rfl h
    have h2 := ne_of_pos_of_reserved (f := .fiqEn) rfl h
    have h3 := ne_of_pos_of_reserved (f := .cbpr) rfl h
    have h4 := ne_of_pos_of_reserved (f := .fiqBypDisGrp0) rfl h
    have h5 := ne_of_pos_of_reserved (f := .irqBypDisGrp0) rfl h
    have h6 := ne_of_pos_of_reserved (f := .fiqBypDisGrp1) rfl h
    have h7 := ne_of_pos_of_reserved (f := .irqBypDisGrp1) rfl h
    have h8 := ne_of_pos_of_reserved (f := .eoiModeS) rfl h
    have h9 := ne_of_pos_of_reserved (f := .eoiModeNs) rfl h
    omega
  · rintro ⟨hlow, hrun⟩ f
    cases f <;> simp only [pos, ne_eq, Option.some.injEq] <;> omega

/-- Settles O13: `RD.S` packs Layout 2, whose ten positions are read off one by one; every other bit is reserved. -/
theorem readSReturnsLayout2 : Obligations.ReadSReturnsLayout2 := by
  refine ⟨by decide, fun s u hwf hu => ⟨_, readView_of_current .s hu, fun k hk => ?bits⟩⟩
  dsimp only
  split_ifs
  case neg => exact getLsbD_pack_off u _ hk (pos_s_ne_some_iff.2 (by omega))
  all_goals
    subst k
    exact getLsbD_pack_at hwf u _ rfl

/-- Settles O17: `WR.S` replaces the served copy by the one written through Layout 2, which holds every field: each cell
is its `writtenCell`, and the reserved cells of the view are `writtenReserved`. -/
theorem writeSReachesLayout2 : Obligations.WriteSReachesLayout2 := by
  intro s u data hu
  refine ⟨?row, _, writeView_of_current .s data hu, ?cells, rfl, rfl, u.write_inputs _ _ _,
    fun h => writtenReserved_of_hardwired h _ _ _, fun h => ?stored⟩
  case row => simp [Instr.descriptor_eq, Instr.view, Instr.data, viewCode]
  case cells =>
    refine FieldTable.ext_get fun f => (u.write_get _ _ _ f).trans ?_
    cases f
    case cbpr => exact writtenCell_of_not_raowi rfl (raowi_cbpr _ _) data
    case enableGrp1 => exact writtenCell_of_not_raowi rfl (raowi_enableGrp1 _ _) data
    case enableGrp0 => exact writtenCell_of_not_raowi rfl (raowi_enableGrp0 _ _) data
    all_goals exact writtenCell_at rfl u data
  case stored =>
    exact ⟨_, writtenReserved_of_stored h _ _ _, fun k hk => getLsbD_and_not_mask data hk pos_s_ne_some_iff⟩

end Sys2Proof.Machine

/-! ### R64, R65: the accesses through the single-state view -/

namespace Sys2Proof.Machine

/-- Layout 3 (R18): its fields stand at bits 0 and 1 and at the seven bits from `oneGap + 2` to `oneGap + 8`, so a bit
holds none exactly if it lies in the lower or the upper reserved run. -/
theorem pos_oneState_ne_some_iff {l : Layout} {k : Nat} :
    (∀ f, pos l .oneState f ≠ some k) ↔ 1 < k ∧ (k < l.oneGap + 2 ∨ l.oneGap + 8 < k) := by
  constructor
  · intro h
    have h0 := ne_of_pos_of_reserved (f := .enableGrp0) rfl h
    have h1 := ne_of_pos_of_reserved (f := .enableGrp1) rfl h
    have h2 := ne_of_pos_of_reserved (f := .fiqEn) rfl h
    have h3 := ne_of_pos_of_reserved (f := .cbpr) rfl h
    have h4 := ne_of_pos_of_reserved (f := .fiqBypDisGrp0) rfl h
    have h5 := ne_of_pos_of_reserved (f := .irqBypDisGrp0) rfl h
    have h6 := ne_of_pos_of_reserved (f := .fiqBypDisGrp1) rfl h
    have h7 := ne_of_pos_of_reserved (f := .irqBypDisGrp1) rfl h
    have h8 := ne_of_pos_of_reserved (f := .eoiModeS) rfl h
    omega
  · rintro ⟨hlow, hrun⟩ f
    cases f <;> simp only [pos, ne_eq, Option.some.injEq, reduceCtorEq, not_false_eq_true] <;> omega

/-- Settles O14: `RD.1S` packs Layout 3, whose nine positions are read off one by one; every other bit is reserved. -/
theorem read1sReturnsLayout3 : Obligations.Read1sReturnsLayout3 := by
  refine ⟨by decide, fun s u hwf hu => ⟨_, readView_of_current .oneState hu, fun k hk => ?bits⟩⟩
  dsimp only
  split_ifs
  case neg => exact getLsbD_pack_off u _ hk (pos_oneState_ne_some_iff.2 (by omega))
  all_goals
    subst k
    exact getLsbD_pack_at hwf u _ rfl

/-- Settles O18: `WR.1S` replaces the served copy by the one written through Layout 3, which holds every field but
`EOImodeNS`: each cell it holds is its `writtenCell`, and the reserved cells of the view are `writtenReserved`. -/
theorem write1sReachesLayout3 : Obligations.Write1sReachesLayout3 := by
  intro s u data hu
  refine ⟨?row, _, writeView_of_current .oneState data hu, ?cells, rfl, rfl, u.write_inputs _ _ _,
    fun h => writtenReserved_of_hardwired h _ _ _, fun h => ?stored⟩
  case row => simp [Instr.descriptor_eq, Instr.view, Instr.data, viewCode]
  case cells =>
    refine FieldTable.ext_get fun f => (u.write_get _ _ _ f).trans ?_
    cases f
    case eoiModeNs => exact writtenCell_off rfl u data
    case cbpr => exact writtenCell_of_not_raowi rfl (raowi_cbpr _ _) data
    case enableGrp1 => exact writtenCell_of_not_raowi rfl (raowi_enableGrp1 _ _) data
    case enableGrp0 => exact writtenCell_of_not_raowi rfl (raowi_enableGrp0 _ _) data
    all_goals exact writtenCell_at rfl u data
  case stored =>
    exact ⟨_, writtenReserved_of_stored h _ _ _, fun k hk => getLsbD_and_not_mask data hk pos_oneState_ne_some_iff⟩

end Sys2Proof.Machine

/-! ### R66, R67: the accesses when the register is absent, and the outputs of no register -/

namespace Sys2Proof.Machine

/-- A read of the absent register answers 0 in every state, also where the served PE has no copy (R66). -/
theorem exec_rdAbsent (s : State) : exec .rdAbsent s = .next ((s.answer (some 0#32)).retire) := rfl

/-- A write to the absent register answers nothing in every state, whatever its `DATA` (R67). -/
theorem exec_wrAbsent (d : Word) (s : State) : exec (.wrAbsent d) s = .next ((s.answer none).retire) := rfl

/-- With no register there is no effective value for an output to act on (R67 corner case (b)). -/
theorem effOutput_of_not_hasLegacy {s : State} (h : s.cfg.hasLegacy = false) (p : Nat) (f : Field) :
    effOutput s p f = none := by
  cases hu : s.cpus[p]? with
  | none => simp only [effOutput, hu]
  | some u => simp [effOutput_of_copy hu, h]

/-! Where no field has an effective value to act on, each output states nothing. -/

section
variable {s : State} {p : Nat} (heff : ∀ f, effOutput s p f = none)
include heff

theorem signallingEnabled_eq_none (g : Group) : signallingEnabled s p g = none := by
  cases g <;> exact heff _

theorem groupSignal_eq_none (g : Group) : groupSignal s p g = none := by
  cases g <;> simp only [groupSignal, heff, Option.map_none]

theorem binaryPointFor_eq_none (g : Group) : binaryPointFor s p g = none := by
  cases g <;> simp only [binaryPointFor, heff, Option.map_none]

/-- With no enable stated, neither that a signal may nor that none may be signalled is stated (log 19). -/
theorem maySignal_eq_none (g : Group) (sig : Signal) : maySignal s p g sig = none := by
  simp only [maySignal, signallingEnabled_eq_none heff]

theorem bypass_eq_notStated (sig : Signal) (g : Group) : bypass s p sig g = .notStated := by
  rw [bypass]
  cases s.cpus[p]? with
  | none => rfl
  | some u => simp only [heff]

theorem eoiModeFor_eq_none (ns : Bool) : eoiModeFor s p ns = none := heff _

/-- With no EOI mode stated, no answer about an end-of-interrupt register is possible (R77). -/
theorem endAnswers_eq_nil (ns : Bool) (r : EndRegister) (isWrite : Bool) : endAnswers s p ns r isWrite = [] := by
  simp only [endAnswers, eoiModeFor_eq_none heff]

end

/-- Settles O15: the row from the operation's `W` and `VIEW`; the step is the answer 0 and the event retired. -/
theorem readAbsentReturnsZero : Obligations.ReadAbsentReturnsZero := by
  refine ⟨?row, fun s => exec_rdAbsent s⟩
  case row => simp [Instr.descriptor_eq, Instr.view, Instr.data, viewCode]

/-- Settles O19: the row from the operation's `W` and `VIEW`; the step answers nothing and retires the event; and with
`HAS_LEGACY = 0` no field has an effective value, on which every output acts. -/
theorem writeAbsentIsDropped : Obligations.WriteAbsentIsDropped := by
  intro s data
  refine ⟨?row, exec_wrAbsent data s, fun hleg p => ?outputs⟩
  case row => simp [Instr.descriptor_eq, Instr.view, Instr.data, viewCode]
  case outputs =>
    have heff : ∀ f, effOutput s p f = none := effOutput_of_not_hasLegacy hleg p
    exact ⟨heff,
      fun g => ⟨signallingEnabled_eq_none heff g, groupSignal_eq_none heff g, binaryPointFor_eq_none heff g⟩,
      fun g sig => ⟨maySignal_eq_none heff g sig, bypass_eq_notStated heff sig g⟩,
      fun ns => ⟨eoiModeFor_eq_none heff ns, endAnswers_eq_nil heff ns⟩⟩

end Sys2Proof.Machine

/-! ### R71 to R73: the enables and the signals of the groups, where the register is in use -/

namespace Sys2Proof.Machine

/-- Where the register is in use (R47), an output acts on the field's effective value. -/
theorem effOutput_of_inUse {s : State} {p : Nat} {u : CpuIface} (hu : s.cpus[p]? = some u)
    (hleg : s.cfg.hasLegacy = true) (hsre : u.inputs.sre = false) (f : Field) :
    effOutput s p f = some (eff s.cfg u f) := by
  simp [effOutput_of_copy hu, hleg, hsre]

/-- A field that the implementation made RAO/WI has the effective value 1 (R19). -/
theorem eff_of_staticRaowi {c : Config} {f : Field} (h : staticRaowi c f = true) (u : CpuIface) :
    eff c u f = .known true :=
  eff_of_raowi (by rw [raowi, h, Bool.true_or])

/-- After a write through a view that holds a field, the served PE's outputs act on the written bit, or on 1 where the
field is RAO/WI. -/
theorem exec_wrInstr_effOutput {s : State} {u : CpuIface} {v : View} {f : Field} {k : Nat} (hu : s.current = some u)
    (hleg : s.cfg.hasLegacy = true) (hsre : u.inputs.sre = false) (hp : pos s.cfg.layout v f = some k) (d : Word) :
    ∃ t, exec (wrInstr d v) s = .next t ∧
      effOutput t s.pe f = some (.known (raowi s.cfg u.inputs f || d.getLsbD k)) := by
  have hexec := (exec_wrInstr (ne_absent_of_pos hp) d s).trans (writeView_of_current v d hu)
  have hsre' : (u.write s.cfg v d).inputs.sre = false := by rw [CpuIface.write_inputs, hsre]
  refine ⟨_, hexec, ?_⟩
  rw [← eff_write_at hp]
  exact effOutput_of_inUse (State.put_current _ hu) hleg hsre' f

/-- Under an injective map, the image of a reading is possible exactly if the reading is. -/
theorem Stored.allows_map {α β : Type} [DecidableEq α] [DecidableEq β] {f : α → β} (hf : Function.Injective f)
    (x : Stored α) (a : α) : (x.map f).allows (f a) = x.allows a := by
  cases x with
  | known b => simp only [Stored.map, Stored.allows, hf.eq_iff]
  | unknown => rfl

/-- Some reading of every stored bit is possible. -/
theorem Stored.exists_allows (x : Stored Bool) : ∃ b, x.allows b = true := by
  cases x with
  | known b => exact ⟨b, decide_eq_true rfl⟩
  | unknown => exact ⟨true, rfl⟩

/-- Only a bit known to be 1 cannot be read as 0. -/
theorem Stored.allows_false_eq_false_iff (x : Stored Bool) : x.allows false = false ↔ x = .known true := by
  cases x <;> simp [Stored.allows]

/-- The signal that a value of `FIQEn` gives Group 0 (R73); `groupSignal_grp0` ties it to the output. -/
def grp0SignalOf (fiqEn : Bool) : Signal := if fiqEn then .fiq else .irq

theorem grp0SignalOf_injective : Function.Injective grp0SignalOf := by
  unfold Function.Injective
  decide

/-- What may be signalled is what the enable and the group's signal both admit (R71 to R73). -/
theorem maySignal_of_some {s : State} {p : Nat} {g : Group} {e : Stored Bool} {x : Stored Signal}
    (he : signallingEnabled s p g = some e) (hx : groupSignal s p g = some x) (sig : Signal) :
    maySignal s p g sig = some (e.allows true && x.allows sig) := by
  simp only [maySignal, he, hx]

/-- A group whose enable is 0 is signalled on neither signal (R71, R72). -/
theorem maySignal_of_disabled {s : State} {p : Nat} {g : Group} {x : Stored Signal}
    (he : signallingEnabled s p g = some (.known false)) (hx : groupSignal s p g = some x) (sig : Signal) :
    maySignal s p g sig = some false :=
  maySignal_of_some he hx sig

section
variable {s : State} {p : Nat} {u : CpuIface} (heff : ∀ f, effOutput s p f = some (eff s.cfg u f))
include heff

theorem signallingEnabled_grp0 : signallingEnabled s p .grp0 = some (eff s.cfg u .enableGrp0) := heff _

theorem signallingEnabled_grp1 : signallingEnabled s p .grp1 = some (eff s.cfg u .enableGrp1) := heff _

theorem groupSignal_grp0 : groupSignal s p .grp0 = some ((eff s.cfg u .fiqEn).map grp0SignalOf) := by
  simp only [groupSignal, heff, Option.map_some]
  rfl

theorem groupSignal_grp1 : groupSignal s p .grp1 = some (.known .irq) := by
  simp only [groupSignal, heff, Option.map_some]

/-- Group 0 may be signalled on the signal of a value that `FIQEn` can have, if its enable can be 1. -/
theorem maySignal_grp0 (b : Bool) :
    maySignal s p .grp0 (grp0SignalOf b) =
      some ((eff s.cfg u .enableGrp0).allows true && (eff s.cfg u .fiqEn).allows b) := by
  rw [maySignal_of_some (signallingEnabled_grp0 heff) (groupSignal_grp0 heff), Stored.allows_map grp0SignalOf_injective]

/-- Group 1 may be signalled on IRQ, if its enable can be 1. -/
theorem maySignal_grp1_irq : maySignal s p .grp1 .irq = some ((eff s.cfg u .enableGrp1).allows true) := by
  rw [maySignal_of_some (signallingEnabled_grp1 heff) (groupSignal_grp1 heff)]
  exact congrArg some (Bool.and_true _)

/-- Group 1 is never signalled on FIQ. -/
theorem maySignal_grp1_fiq : maySignal s p .grp1 .fiq = some false := by
  rw [maySignal_of_some (signallingEnabled_grp1 heff) (groupSignal_grp1 heff)]
  exact congrArg some (Bool.and_false _)

/-- FIQ can carry Group 0 alone, with `FIQEn` and the enable both possibly 1 (R73). -/
theorem maySignal_fiq_iff (g : Group) :
    maySignal s p g .fiq = some true ↔
      g = .grp0 ∧ (eff s.cfg u .fiqEn).allows true = true ∧ (eff s.cfg u .enableGrp0).allows true = true := by
  cases g with
  | grp0 => simp [show maySignal s p .grp0 .fiq = _ from maySignal_grp0 heff true, and_comm]
  | grp1 => simp [maySignal_grp1_fiq heff]

/-- IRQ can carry a possibly enabled Group 1, and Group 0 with `FIQEn` possibly 0 and the enable possibly 1 (R73). -/
theorem maySignal_irq_iff (g : Group) :
    maySignal s p g .irq = some true ↔
      (g = .grp1 ∧ (eff s.cfg u .enableGrp1).allows true = true) ∨
      (g = .grp0 ∧ (eff s.cfg u .fiqEn).allows false = true ∧ (eff s.cfg u .enableGrp0).allows true = true) := by
  cases g with
  | grp0 => simp [show maySignal s p .grp0 .irq = _ from maySignal_grp0 heff false, and_comm]
  | grp1 => simp [maySignal_grp1_irq heff]

/-- Where the register is in use, each signal may or may not carry each group: one of the two is stated. -/
theorem maySignal_isSome (g : Group) (sig : Signal) : ∃ b, maySignal s p g sig = some b := by
  cases g with
  | grp0 => exact ⟨_, maySignal_of_some (signallingEnabled_grp0 heff) (groupSignal_grp0 heff) sig⟩
  | grp1 => exact ⟨_, maySignal_of_some (signallingEnabled_grp1 heff) (groupSignal_grp1 heff) sig⟩

/-- An enabled Group 0 may be signalled, on the signal of some value that `FIQEn` can have. -/
theorem exists_maySignal_grp0 (he : eff s.cfg u .enableGrp0 = .known true) :
    ∃ sig, maySignal s p .grp0 sig = some true := by
  obtain ⟨b, hb⟩ := (eff s.cfg u .fiqEn).exists_allows
  refine ⟨grp0SignalOf b, ?_⟩
  rw [maySignal_grp0 heff, he, hb]
  rfl

end

/-- Settles O43: Group 0's signal is the image of `eff(FIQEn)`, Group 1's is IRQ, and a signal carries a group exactly if
the group's enable and its signal both admit it. -/
theorem fiqCarriesOnlyGroup0 : Obligations.FiqCarriesOnlyGroup0 := by
  intro s p u hu hleg hsre
  have heff := effOutput_of_inUse hu hleg hsre
  have hsig := groupSignal_grp0 heff
  have hfiq (h : eff s.cfg u .fiqEn = .known true) : groupSignal s p .grp0 = some (.known .fiq) := by rw [hsig, h]; rfl
  refine ⟨hfiq, fun h => ?irq, fun h => ?unknown, groupSignal_grp1 heff,
    fun h => hfiq (eff_of_staticRaowi (f := .fiqEn) h u), maySignal_isSome heff, maySignal_fiq_iff heff,
    maySignal_irq_iff heff⟩
  all_goals
    rw [hsig, h]
    rfl

/-- Settles O42: the enables are effective values, which a disabled group's signals and an enabled one's follow; and a
write through either view leaves its own bit in the one cell of `EnableGrp1`, which is never RAO/WI. -/
theorem disabledGroupIsNotSignalled : Obligations.DisabledGroupIsNotSignalled := by
  refine ⟨fun s p u hu hleg hsre => ?_, fun s u d hu hleg hsre =>
    ⟨exec_wrInstr_effOutput (v := .s) (f := .enableGrp1) hu hleg hsre rfl d,
      exec_wrInstr_effOutput (v := .ns) (f := .enableGrp1) hu hleg hsre rfl d⟩⟩
  have heff := effOutput_of_inUse hu hleg hsre
  have henable0 := signallingEnabled_grp0 heff
  have henable1 := signallingEnabled_grp1 heff
  refine ⟨henable0, henable1, fun h => ?disabled0, fun h => ?disabled1, exists_maySignal_grp0 heff, fun h => ?enabled1⟩
  case disabled0 => exact maySignal_of_disabled (h ▸ henable0) (groupSignal_grp0 heff)
  case disabled1 => exact maySignal_of_disabled (h ▸ henable1) (groupSignal_grp1 heff)
  case enabled1 => rw [maySignal_grp1_irq heff, h]; rfl

end Sys2Proof.Machine

/-! ### R74 to R76: the bypass signals -/

namespace Sys2Proof.Machine

section
variable {s : State} {p : Nat} {u : CpuIface} (hu : s.cpus[p]? = some u) (sig : Signal) (g : Group)
  (heff : effOutput s p (bypassField sig g) = some (eff s.cfg u (bypassField sig g)))
include hu heff

/-- A bypass signal is spoken of while the signalling is disabled and `SRE_EL1 = 0`; then its field says whether it may be
signalled (R74 to R76). -/
theorem bypass_of_inUse :
    bypass s p sig g =
      if signallingDisabled u.inputs sig = true ∧ u.inputs.sreEl1 = false then
        (if eff s.cfg u (bypassField sig g) = .known true then .notSignalled else .mayBeSignalled)
      else .notStated := by
  simp only [bypass, hu, heff, Bool.and_eq_true, Bool.not_eq_true']
  simp only [← Stored.allows_false_eq_false_iff]
  cases (eff s.cfg u (bypassField sig g)).allows false <;> rfl

theorem bypass_eq_notSignalled_iff :
    bypass s p sig g = .notSignalled ↔
      signallingDisabled u.inputs sig = true ∧ u.inputs.sreEl1 = false ∧
        eff s.cfg u (bypassField sig g) = .known true := by
  rw [bypass_of_inUse hu sig g heff, ← and_assoc]
  split_ifs <;> simp [*]

theorem bypass_eq_mayBeSignalled_iff :
    bypass s p sig g = .mayBeSignalled ↔
      signallingDisabled u.inputs sig = true ∧ u.inputs.sreEl1 = false ∧
        eff s.cfg u (bypassField sig g) ≠ .known true := by
  rw [bypass_of_inUse hu sig g heff, ← and_assoc]
  split_ifs <;> simp [*]

theorem bypass_eq_notStated_of_not_disabled (h : signallingDisabled u.inputs sig = false) :
    bypass s p sig g = .notStated := by
  simp [bypass_of_inUse hu sig g heff, h]

theorem bypass_eq_notStated_of_sreEl1 (h : u.inputs.sreEl1 = true) : bypass s p sig g = .notStated := by
  simp [bypass_of_inUse hu sig g heff, h]

end

/-- `SRE_EL1` makes no field RAO/WI (R19). -/
theorem raowi_sreEl1 (c : Config) (x : Inputs) (b : Bool) (f : Field) :
    raowi c { x with sreEl1 := b } f = raowi c x f := by
  cases f <;> rfl

section
variable {c : Config} {u : CpuIface} {x : Inputs} (h : ∀ f, raowi c x f = raowi c u.inputs f)
include h

/-- A read sees the inputs only in which fields are RAO/WI. -/
theorem pack_with_inputs (drawn : Word) (v : View) : pack c { u with inputs := x } drawn v = pack c u drawn v := by
  have heff : ∀ f, eff c { u with inputs := x } f = eff c u f := fun f => by simp only [eff, h]
  have hres : ∀ v, CpuIface.reserved { u with inputs := x } v = u.reserved v := fun v => by cases v <;> rfl
  simp only [pack, reservedBits, heff, hres]

/-- A write sees the inputs only in which fields are RAO/WI, and keeps them (R5). -/
theorem CpuIface.write_with_inputs (v : View) (d : Word) :
    CpuIface.write c { u with inputs := x } v d = { u.write c v d with inputs := x } := by
  have hcell : writtenCell c { u with inputs := x } v d = writtenCell c u v d :=
    funext fun f => by simp only [writtenCell, h]
  simp only [CpuIface.write, hcell]
  cases v <;> rfl

end

/-- Settles O44: the named fields and inputs are those `bypass` acts on, whose answer `bypass_of_inUse` gives; and reads
and writes see the inputs only through `raowi`, which does not look at `SRE_EL1`. -/
theorem bypassFieldGatesTheBypassSignal : Obligations.BypassFieldGatesTheBypassSignal := by
  refine ⟨fun s p u sig g hu hleg hsre => ?answers, fun c u b v drawn data => ?accesses⟩
  case answers =>
    have heff := effOutput_of_inUse hu hleg hsre (bypassField sig g)
    have hanswers := And.intro (bypass_eq_notSignalled_iff hu sig g heff) <|
      And.intro (bypass_eq_mayBeSignalled_iff hu sig g heff) <|
        And.intro (bypass_eq_notStated_of_not_disabled hu sig g heff) (bypass_eq_notStated_of_sreEl1 hu sig g heff)
    cases sig <;> cases g <;> exact hanswers
  case accesses =>
    have hraowi := raowi_sreEl1 c u.inputs b
    exact ⟨pack_with_inputs hraowi drawn v, CpuIface.write_with_inputs hraowi v data⟩

end Sys2Proof.Machine

/-! ### R77 to R81: the end of an interrupt and the binary point registers -/

namespace Sys2Proof.Machine

/-- With one EOI mode possible, its answer is the only one (R78 to R80). -/
theorem endAnswers_of_known {s : State} {p : Nat} {ns b : Bool} (h : eoiModeFor s p ns = some (.known b))
    (r : EndRegister) (isWrite : Bool) : endAnswers s p ns r isWrite = [endEffect b r isWrite] := by
  simp only [endAnswers, h]
  cases b <;> rfl

/-- With the EOI mode UNKNOWN, the answers of both modes are possible (00_scope section 5.3). -/
theorem endAnswers_of_unknown {s : State} {p : Nat} {ns : Bool} (h : eoiModeFor s p ns = some .unknown)
    (r : EndRegister) (isWrite : Bool) :
    endAnswers s p ns r isWrite = [endEffect false r isWrite, endEffect true r isWrite] := by
  simp only [endAnswers, h]
  rfl

theorem eoiModeField_of_not_banked {c : Config} (h : c.banked = false) (ns : Bool) : eoiModeField c ns = .eoiModeS :=
  if_pos h

theorem eoiModeField_secure (c : Config) : eoiModeField c false = .eoiModeS := by
  simp [eoiModeField]

theorem eoiModeField_nonsecure {c : Config} (h : c.banked = true) : eoiModeField c true = .eoiModeNs := by
  simp [eoiModeField, h]

section
variable {s : State} {p : Nat} {u : CpuIface} (heff : ∀ f, effOutput s p f = some (eff s.cfg u f)) {ns : Bool}
  {f : Field} (hf : eoiModeField s.cfg ns = f)
include heff hf

/-- The EOI mode of an access is the effective value of the field that governs it (R77). -/
theorem eoiModeFor_of_field : eoiModeFor s p ns = some (eff s.cfg u f) := by
  rw [eoiModeFor, hf, heff]

/-- A RAO/WI field's only EOI mode is 1 (R77). -/
theorem eoiModeFor_of_raowi_field (hraowi : staticRaowi s.cfg f = true) :
    eoiModeFor s p ns = some (.known true) := by
  rw [eoiModeFor_of_field heff hf, eff_of_staticRaowi hraowi]

end

/-- Settles O45: the mode is the effective value of the field `eoiModeField` chooses, 1 where that is RAO/WI; and the
answers are those of `endEffect` in each mode that can be read. -/
theorem eoiModeGovernsTheEndOfInterrupt : Obligations.EoiModeGovernsTheEndOfInterrupt := by
  refine ⟨fun s p u ns hu hleg hsre => ?mode, fun s p ns => ⟨fun h => ?mode0, fun h => ?mode1, fun r w h => ?unknown⟩⟩
  case mode =>
    have heff := effOutput_of_inUse hu hleg hsre
    refine ⟨fun hb => eoiModeFor_of_field heff (eoiModeField_of_not_banked hb ns),
      fun hb => eoiModeFor_of_field heff (eoiModeField_nonsecure hb),
      fun _ => eoiModeFor_of_field heff (eoiModeField_secure _),
      fun hf hb => eoiModeFor_of_raowi_field heff (eoiModeField_nonsecure hb) hf, fun hf hsec => ?_⟩
    rcases hsec with hb | rfl
    · exact eoiModeFor_of_raowi_field heff (eoiModeField_of_not_banked hb ns) hf
    · exact eoiModeFor_of_raowi_field heff (eoiModeField_secure _) hf
  case mode0 => exact ⟨endAnswers_of_known h _ _, endAnswers_of_known h _ _, fun w => endAnswers_of_known h _ w⟩
  case mode1 => exact ⟨endAnswers_of_known h _ _, endAnswers_of_known h _ _, endAnswers_of_known h _ _⟩
  case unknown => exact endAnswers_of_unknown h r w

/-- Settles O46: Group 0's register is GICC_BPR, and Group 1's is what `eff(CBPR)` is mapped to. -/
theorem cbprChoosesTheBinaryPointRegister : Obligations.CbprChoosesTheBinaryPointRegister := by
  intro s p u hu hleg hsre
  have hcbpr := effOutput_of_inUse hu hleg hsre .cbpr
  refine ⟨?grp0, fun h => ?one, fun h => ?zero, fun h => ?unknown⟩
  case grp0 => simp only [binaryPointFor, hcbpr, Option.map_some]
  all_goals
    simp only [binaryPointFor, hcbpr, h, Option.map_some]
    rfl

end Sys2Proof.Machine

/-! ### R50, R53, R54: descriptors laid out in bytes -/

namespace Sys2Proof

/-- `AD` padded to three bytes has zeros above bit 18. -/
theorem extractLsb'_padding_setWidth (a : BitVec 19) : (a.setWidth 24).extractLsb' 19 5 = 0#5 := by
  ext k hk
  simp

/-- The low 19 bits of a padded `AD` are the `AD`. -/
theorem extractLsb'_ad_setWidth (a : BitVec 19) : (a.setWidth 24).extractLsb' 0 19 = a := by
  ext k hk
  have hk' : k < 24 := by omega
  simp [hk', hk]

theorem Descriptor.bytes_none (a : BitVec 19) : (Descriptor.mk a none).bytes = adBytes a := List.append_nil _

theorem Descriptor.bytes_some (a : BitVec 19) (x : Word) :
    (Descriptor.mk a (some x)).bytes = adBytes a ++ wordBytes x := rfl

/-- The decoder reads a descriptor laid out in bytes as the descriptor, and leaves the bytes after it (R50; log 11). -/
theorem decode_descriptor_bytes {d : Descriptor} (h : d.data.isSome = d.ad.getLsbD 18) (rest : List Byte) :
    decode (d.bytes ++ rest) = (decodeDescriptor d).map (fun i => (i, rest)) := by
  have hw : (d.ad.setWidth 24).getLsbD 18 = d.data.isSome := by simp [h]
  obtain ⟨a, _ | x⟩ := d
  · simp only [Descriptor.bytes_none, adBytes, List.cons_append, List.nil_append, decode, join3_adBytes,
      extractLsb'_padding_setWidth, hw, extractLsb'_ad_setWidth, ne_eq, not_true_eq_false, if_false,
      Option.isSome_none, Bool.false_eq_true]
  · simp only [Descriptor.bytes_some, adBytes, wordBytes, List.cons_append, List.nil_append, decode, join3_adBytes,
      join4_wordBytes, extractLsb'_padding_setWidth, hw, extractLsb'_ad_setWidth, ne_eq, not_true_eq_false, if_false,
      Option.isSome_some, if_true]

/-- What a decoded descriptor and the bytes left over were made from. -/
theorem map_pair_eq_ok {e : Except DecodeError Instr} {i : Instr} {tail rest : List Byte}
    (h : e.map (fun j => (j, tail)) = .ok (i, rest)) : e = .ok i ∧ tail = rest := by
  cases e <;> cases h
  exact ⟨rfl, rfl⟩

/-- Bytes that decode to an operation are a descriptor of it laid out, followed by the bytes left over. -/
theorem exists_descriptor_of_decode {bs rest : List Byte} {i : Instr} (h : decode bs = .ok (i, rest)) :
    ∃ d, decodeDescriptor d = .ok i ∧ bs = d.bytes ++ rest := by
  unfold decode at h
  split at h
  · next b0 b1 b2 tail =>
    dsimp only at h
    split at h
    · cases h
    · next hpad =>
      have had := adBytes_join3 (not_not.1 hpad)
      split at h
      · split at h
        · next d0 d1 d2 d3 tail' =>
          obtain ⟨hd, rfl⟩ := map_pair_eq_ok h
          exact ⟨_, hd, by rw [Descriptor.bytes_some, had, wordBytes_join4]; rfl⟩
        · cases h
      · obtain ⟨hd, rfl⟩ := map_pair_eq_ok h
        exact ⟨_, hd, by rw [Descriptor.bytes_none, had]; rfl⟩
  · cases h

/-- Settles O2: an operation's bytes are its descriptor laid out, which the decoder reads back as the descriptor. -/
theorem decodeOfEncodeIsTheOperation : Obligations.DecodeOfEncodeIsTheOperation := by
  intro i rest
  have hw : i.descriptor.data.isSome = i.descriptor.ad.getLsbD 18 := (mkAd_write _ _).symm
  rw [encode, decode_descriptor_bytes hw, decodeDescriptor_descriptor]
  rfl

/-- Settles O3: bytes that decode are a descriptor laid out, and the only descriptor that decodes to an operation is the
operation's own. -/
theorem decodedBytesAreTheEncoding : Obligations.DecodedBytesAreTheEncoding := by
  intro bs i rest h
  obtain ⟨d, hd, rfl⟩ := exists_descriptor_of_decode h
  rw [encode, ← eq_descriptor_of_decodeDescriptor hd]

/-- Settles O1: each written-out descriptor is that of its operation. -/
theorem descriptorWordsDecode : Obligations.DescriptorWordsDecode := by
  simp only [Obligations.DescriptorWordsDecode, decodeDescriptor_eq_ok_iff]
  decide

/-- A descriptor of another `OFFSET` is refused before its `DATA` is looked at (R54). -/
theorem decodeDescriptor_of_offset_ne_zero {d : Descriptor} (h : d.ad.extractLsb' 0 16 ≠ 0#16) :
    decodeDescriptor d = .error .offsetNotZero := if_pos h

namespace Machine

/-- A step at a presented descriptor that does not decode is refused for the decoder's reason. -/
theorem step_present_error {s : State} {p : Nat} {u : CpuIface} {rest : List Event} {bytes : List Byte}
    {e : DecodeError} (hq : s.queue = ⟨p, .present bytes⟩ :: rest) (hu : s.cpus[p]? = some u)
    (hd : decode bytes = .error e) : step s = .refused (refusalOf e) := by
  rw [step_of_copy hq hu]
  simp only [serve, presentedInstr, State.turn_current, hu, hd, runAccess]

/-- Settles O49: the bytes are read back as the descriptor, whose `OFFSET` the decoder refuses. -/
theorem descriptorOfAnotherOffsetIsRefused : Obligations.DescriptorOfAnotherOffsetIsRefused := by
  intro s p u d rest hq hu hdata hoff
  refine step_present_error (e := .offsetNotZero) hq hu ?_
  rw [← List.append_nil d.bytes, decode_descriptor_bytes hdata, decodeDescriptor_of_offset_ne_zero hoff]
  rfl

/-- The views R51 can make under a configuration and inputs, as its lines say (R53; log 12). -/
theorem producible_iff (c : Config) (x : Inputs) (v : View) :
    producible c x v = true ↔
      if c.hasLegacy = false then v = .absent
      else if x.sre = true ∧ c.sreAccess = .razWi then v = .absent
      else if c.banked = false then v = .oneState
      else v = .ns ∨ v = .s := by
  simp only [producible, selectView, Bool.or_eq_true, decide_eq_true_eq, Bool.false_eq_true, if_false, if_true]
  split_ifs
  · exact or_self_iff
  · exact or_self_iff
  · exact or_self_iff
  · exact or_comm

/-- What a presented operation runs as: the refusals of R47 and R53, else the operation itself. -/
theorem runAccess_checkPresented (c : Config) (x : Inputs) (i : Instr) (s : State) :
    runAccess (checkPresented c x i) s =
      if x.sre = true ∧ c.sreAccess = .refuse then .refused .sreEnabled
      else if producible c x i.view = true then exec i s
      else .refused .viewNotProduced := by
  rw [checkPresented, runAccess_ite_error]
  split_ifs <;> rfl

/-- Settles O6: bytes that do not decode are refused for the decoder's reason; an operation goes through the lines of
the check of R47 and R53. -/
theorem stepRunsThePresentedOperation : Obligations.StepRunsThePresentedOperation := by
  intro s p u bytes rest hq hu
  cases hd : decode bytes with
  | error e =>
    rw [step_present_error hq hu hd]
    cases e <;> rfl
  | ok r =>
    obtain ⟨i, tail⟩ := r
    rw [step_present hq hu hd, runAccess_checkPresented]
    simp only [producible_iff]

/-- An operation that passes the check of a presented descriptor is run as it is. -/
theorem checkPresented_ok {c : Config} {x : Inputs} {i j : Instr} (h : checkPresented c x i = .ok j) :
    i = j ∧ producible c x i.view = true := by
  unfold checkPresented at h
  split at h
  · cases h
  · split at h
    · next hp => exact ⟨Except.ok.inj h, hp⟩
    · cases h

/-- What R51 makes of a bus access, when it makes an operation, is the operation of the view selected. -/
theorem busInstrUnder_ok {c : Config} {x : Inputs} {a : BusAccess} {i : Instr} (h : busInstrUnder c x a = .ok i) :
    i = opInstr (selectView c x a.ns) a.op := by
  rw [busInstrUnder_eq] at h
  split_ifs at h
  exact (Except.ok.inj h).symm

/-- The operation an access event turns out to be, under the configuration and the inputs of the served PE's copy: what
R51 makes of a bus access, or a presented operation that passes the check. -/
theorem accessInstr_ok {s : State} {a : Action} {i : Instr} (h : accessInstr s a = some (.ok i)) :
    ∃ u, s.current = some u ∧
      ((∃ b, a = .bus b ∧ i = opInstr (selectView s.cfg u.inputs b.ns) b.op) ∨
       (∃ bytes tail, a = .present bytes ∧ decode bytes = .ok (i, tail) ∧
          producible s.cfg u.inputs i.view = true)) := by
  cases a with
  | bus b =>
    have hi := Option.some.inj h
    unfold busInstr at hi
    split at hi
    · cases hi
    · next u hu => exact ⟨u, hu, .inl ⟨b, rfl, busInstrUnder_ok hi⟩⟩
  | present bytes =>
    have hi := Option.some.inj h
    unfold presentedInstr at hi
    split at hi
    · cases hi
    · next u hu =>
      split at hi
      · cases hi
      · next j tail hd =>
        obtain ⟨rfl, hp⟩ := checkPresented_ok hi
        exact ⟨u, hu, .inr ⟨bytes, tail, rfl, hd, hp⟩⟩
  | reset => cases h
  | setInput i b => cases h
  | writeCbprEl1ns b => cases h

/-- Settles O5: R51 selects only views whose rows can occur, and a presented operation of any other view fails the
check. -/
theorem onlyOccurringOperationsRun : Obligations.OnlyOccurringOperationsRun := by
  intro s a i h
  obtain ⟨u, -, ⟨b, -, rfl⟩ | ⟨bytes, tail, -, -, hp⟩⟩ := accessInstr_ok h
  · rw [Instr.occursIn_eq_of_view, opInstr_view]
    exact occursIn_selectView _ _ _
  · cases ho : i.occursIn s.cfg with
    | true => rfl
    | false => rw [producible_of_not_occursIn ho] at hp; cases hp

/-- Settles O8: with `GICC_BASE` aligned such an address is not, which R51's first line refuses. -/
theorem accessInsideTheWordRefused : Obligations.AccessInsideTheWordRefused := by
  intro s p u a rest k hwf hq hu hk1 hk3 ha
  obtain ⟨-, -, -, hbase, -, -⟩ := s.cfg.wf_iff.1 hwf
  have hmis : a.size ≠ 4 ∨ a.addr % 4 ≠ 0 := .inr (by omega)
  rw [step_bus hq hu, busInstrUnder_eq, if_pos hmis]
  rfl

/-- With no event to come a step changes nothing (R33; log 22). -/
theorem step_of_no_event {s : State} (hq : s.queue = []) : step s = .next s := by
  simp only [step, hq]

/-- An event of a PE that does not exist is refused (log 23). -/
theorem step_of_missing_pe {s : State} {e : Event} {rest : List Event} (hq : s.queue = e :: rest)
    (hlen : s.cpus.length ≤ e.pe) : step s = .refused .noSuchPe := by
  simp only [step, hq, if_neg (Nat.not_lt.2 hlen)]

/-- Settles O9: the two cases of a step that serves no event. -/
theorem idleStepAndMissingPe : Obligations.IdleStepAndMissingPe :=
  ⟨fun _ => step_of_no_event, fun _ _ _ => step_of_missing_pe⟩

/-- R51 selects the absent register where there is none, and under `raz_wi` while `SRE = 1`. -/
theorem selectView_eq_absent {c : Config} {x : Inputs}
    (h : c.hasLegacy = false ∨ (x.sre = true ∧ c.sreAccess = .razWi)) (ns : Bool) : selectView c x ns = .absent := by
  unfold selectView
  rcases h with h | h
  · rw [if_pos h]
  · rw [if_pos h, ite_self]

/-- Settles O20: no line of R51 refuses such an access and the view selected is the absent register, whose accesses
answer 0 and nothing; and an output exists only with the register. -/
theorem absentRegisterIsRes0 : Obligations.AbsentRegisterIsRes0 := by
  refine ⟨fun s p u a rest hq hu hsize haddr hwf habs => ?access, fun s p f hleg => ⟨?output, ?otherName⟩⟩
  case access =>
    obtain ⟨-, -, -, hbase, -, -⟩ := s.cfg.wf_iff.1 hwf
    have hrefuse : ¬ (u.inputs.sre = true ∧ s.cfg.sreAccess = .refuse) := by
      rintro ⟨hsre, hr⟩
      rcases habs with ⟨-, hn⟩ | ⟨-, hraz⟩
      · exact hn ⟨hsre, hr⟩
      · rw [hr] at hraz; cases hraz
    have hview := selectView_eq_absent (habs.imp_left And.left) a.ns
    have hinstr : busInstrUnder s.cfg u.inputs a = .ok (opInstr .absent a.op) := by
      simp [busInstrUnder_eq, hsize, haddr, hbase, hrefuse, hview]
    rw [step_bus hq hu, hinstr, ← List.tail_cons (a := (⟨p, .bus a⟩ : Event)) (as := rest), ← hq]
    cases a.op <;> rfl
  case output => exact effOutput_of_not_hasLegacy hleg p f
  case otherName => cases h : s.cpus[p]? <;> simp [cbprEl1ns, h, hleg]

end Machine

end Sys2Proof

/-! ### R45, R87: what a step can leave in a register copy -/

namespace Sys2Proof.Machine

/-- What an operation leaves beside its answer: it retires its event, and only the write of a view that is there changes
a copy, the served one (R45). -/
theorem exec_frame {i : Instr} {s t : State} (h : exec i s = .next t) :
    t.cfg = s.cfg ∧ t.pe = s.pe ∧ t.queue = s.queue.tail ∧
      (t.cpus = s.cpus ∨ ∃ d v u, i = wrInstr d v ∧ v ≠ .absent ∧ s.current = some u ∧
        t.cpus = s.cpus.set s.pe (u.write s.cfg v d)) := by
  obtain ⟨v, u, -, -, -, rfl⟩ | ⟨v, d, u, hi, hv, hu, rfl⟩ | ⟨-, rfl⟩ | ⟨d, -, rfl⟩ := exec_cases h
  · exact ⟨rfl, rfl, rfl, .inl rfl⟩
  · exact ⟨rfl, rfl, rfl, .inr ⟨d, v, u, hi, hv, hu, rfl⟩⟩
  · exact ⟨rfl, rfl, rfl, .inl rfl⟩
  · exact ⟨rfl, rfl, rfl, .inl rfl⟩

/-- An operation answers a next state wherever the served PE has a register copy. -/
theorem exec_next_of_current {s : State} {u : CpuIface} (hu : s.current = some u) (i : Instr) :
    ∃ t, exec i s = .next t := by
  cases i with
  | rdAbsent => exact ⟨_, rfl⟩
  | wrAbsent d => exact ⟨_, rfl⟩
  | rdNs => exact ⟨_, readView_of_current .ns hu⟩
  | rdS => exact ⟨_, readView_of_current .s hu⟩
  | rd1s => exact ⟨_, readView_of_current .oneState hu⟩
  | wrNs d => exact ⟨_, writeView_of_current .ns d hu⟩
  | wrS d => exact ⟨_, writeView_of_current .s d hu⟩
  | wr1s d => exact ⟨_, writeView_of_current .oneState d hu⟩

/-- Settles O10: an operation is refused only where the served PE has no copy; what it leaves is its frame. -/
theorem everyOperationCompletesInOneStep : Obligations.EveryOperationCompletesInOneStep := by
  intro i s u hu
  obtain ⟨t, ht⟩ := exec_next_of_current hu i
  obtain ⟨hcfg, hpe, hqueue, hcpus⟩ := exec_frame ht
  refine ⟨t, ht, hqueue, hcfg, hpe, ?_⟩
  rcases hcpus with h | ⟨d, v, u, -, -, -, h⟩ <;> simp [h]

/-- What the step at an event can leave in the copy of the event's PE: the copy as it was, or written through the view
of the access, reset, given an input, or given the cell of its other name. -/
inductive CopyStep (s : State) (e : Event) (u : CpuIface) : CpuIface → Prop
  | kept : CopyStep s e u u
  | written (d : Word) (v : View) (h : accessInstr (s.turn e.pe) e.act = some (.ok (wrInstr d v))) :
      CopyStep s e u (u.write s.cfg v d)
  | reset (h : e.act = .reset) : CopyStep s e u (u.reset s.cfg)
  | input (i : Input) (b : Bool) (h : e.act = .setInput i b) : CopyStep s e u (u.setInput s.cfg i b)
  | otherName (b : Bool) (h : e.act = .writeCbprEl1ns b) : CopyStep s e u (u.writeCbprEl1ns b)

/-- What a step at an event leaves: it retires the event, serves its PE, and replaces that PE's copy alone (R45, R87). -/
theorem step_replaces_copy {s t : State} {e : Event} {rest : List Event} (hq : s.queue = e :: rest)
    (h : step s = .next t) :
    t.cfg = s.cfg ∧ t.pe = e.pe ∧ t.queue = rest ∧
      ∃ u w, s.cpus[e.pe]? = some u ∧ CopyStep s e u w ∧ t.cpus = s.cpus.set e.pe w := by
  obtain ⟨hnil, -⟩ | ⟨e', rest', hq', hlt, hserve⟩ := step_cases h
  · simp [hnil] at hq
  obtain ⟨rfl, rfl⟩ := List.cons.inj (hq.symm.trans hq')
  have hu := List.getElem?_eq_getElem hlt
  obtain ⟨i, hi, hexec⟩ | ⟨u, f, hu, rfl, hf⟩ := hserve
  · obtain ⟨hcfg, hpe, hqueue, hcpus⟩ := exec_frame hexec
    refine ⟨hcfg, hpe, hqueue.trans (congrArg List.tail hq), ?_⟩
    obtain hkept | ⟨d, v, u, rfl, -, hu, hset⟩ := hcpus
    · exact ⟨_, _, hu, .kept, by rw [hkept, List.set_getElem_self]; rfl⟩
    · exact ⟨u, _, hu, .written d v hi, hset⟩
  · refine ⟨rfl, rfl, congrArg List.tail hq, u, f u, hu, ?_, rfl⟩
    obtain ⟨ha, rfl⟩ | ⟨i, b, ha, rfl⟩ | ⟨b, ha, rfl⟩ := hf
    · exact .reset ha
    · exact .input i b ha
    · exact .otherName b ha

/-- What a step leaves in the copy of any one PE. -/
theorem step_copy {s t : State} {e : Event} {rest : List Event} {p : Nat} {u w : CpuIface} (hq : s.queue = e :: rest)
    (h : step s = .next t) (hu : s.cpus[p]? = some u) (hw : t.cpus[p]? = some w) :
    (e.pe ≠ p ∧ w = u) ∨ (e.pe = p ∧ CopyStep s e u w) := by
  obtain ⟨-, -, -, u', w', hu', hstep, hcpus⟩ := step_replaces_copy hq h
  obtain ⟨hlt, -⟩ := List.getElem?_eq_some_iff.1 hu
  rw [hcpus] at hw
  by_cases hp : e.pe = p
  · subst hp
    rw [List.getElem?_set_self hlt] at hw
    obtain rfl := Option.some.inj hw
    obtain rfl := Option.some.inj (hu'.symm.trans hu)
    exact .inr ⟨rfl, hstep⟩
  · rw [List.getElem?_set_ne hp, hu] at hw
    exact .inl ⟨hp, (Option.some.inj hw).symm⟩

/-- Settles O11: a step replaces the copy of the event's PE. -/
theorem stepChangesOnlyItsOwnPe : Obligations.StepChangesOnlyItsOwnPe := by
  intro s t e rest hq h
  obtain ⟨hcfg, hpe, hqueue, u, w, -, -, hcpus⟩ := step_replaces_copy hq h
  rw [hcpus]
  exact ⟨hcfg, hqueue, hpe, List.length_set, fun q hne => List.getElem?_set_ne hne.symm⟩

/-- Settles O41: the one copy an operation writes keeps its inputs. -/
theorem accessesWriteNoInput : Obligations.AccessesWriteNoInput := by
  intro i s t p u h hu
  obtain ⟨-, -, -, hkept | ⟨d, v, u', -, -, hcur, hset⟩⟩ := exec_frame h
  · exact ⟨u, by rw [hkept, hu], rfl⟩
  · rw [hset]
    by_cases hp : s.pe = p
    · subst hp
      obtain rfl := Option.some.inj (hu.symm.trans hcur)
      obtain ⟨hlt, -⟩ := List.getElem?_eq_some_iff.1 hu
      exact ⟨_, List.getElem?_set_self hlt, u.write_inputs _ _ _⟩
    · exact ⟨u, by rw [List.getElem?_set_ne hp, hu], rfl⟩

/-! ### The invariant, copy by copy (R30, R31) -/

/-- The copy's part of the invariant: statically RAO/WI cells hold 1, reserved cells hold no field's bit. -/
def CpuIface.Wf (c : Config) (u : CpuIface) : Prop := u.RaowiCellsHoldOne c ∧ u.ReservedWf c

/-- The invariant, with the copy's part by name. -/
theorem State.inv_iff (s : State) :
    s.Inv ↔ s.cfg.wf = true ∧ s.cpus.length = s.cfg.nPe ∧ s.pe < s.cfg.nPe ∧ ∀ u ∈ s.cpus, u.Wf s.cfg := Iff.rfl

/-- A statically RAO/WI field is RAO/WI whatever the inputs (R19). -/
theorem raowi_of_staticRaowi {c : Config} {f : Field} (h : staticRaowi c f = true) (x : Inputs) :
    raowi c x f = true := by
  simp [raowi, h]

/-- What a write leaves in its view's reserved cells are cells the view may hold (R30). -/
theorem reservedOk_writtenReserved {c : Config} {v : View} {x : Stored Word} (h : reservedOk c v x = true) (d : Word) :
    reservedOk c v (writtenReserved c x v d) = true := by
  cases hm : c.res0Mode with
  | hardwired => rwa [writtenReserved_of_hardwired hm]
  | stored =>
    rw [writtenReserved_of_stored hm]
    simp [reservedOk, hm, BitVec.and_assoc]

/-- A write through any view keeps a copy well-formed: it skips RAO/WI cells and masks the fields' bits off. -/
theorem CpuIface.Wf.write {c : Config} {u : CpuIface} (h : u.Wf c) (v : View) (d : Word) : (u.write c v d).Wf c := by
  obtain ⟨hone, hres⟩ := h
  refine ⟨fun f hf hs => ?_, fun v' hv' => ?_⟩
  · rw [CpuIface.write_get_of_raowi (raowi_of_staticRaowi hs _)]
    exact hone f hf hs
  · rw [CpuIface.write_reserved]
    split
    · next hv =>
      obtain ⟨rfl, -⟩ := hv
      exact reservedOk_writtenReserved (hres v' hv') d
    · exact hres v' hv'

/-- A new input keeps a copy well-formed: it ends no field's being statically RAO/WI. -/
theorem CpuIface.Wf.setInput {c : Config} {u : CpuIface} (h : u.Wf c) (i : Input) (b : Bool) :
    (u.setInput c i b).Wf c := by
  obtain ⟨hone, hres⟩ := h
  refine ⟨fun f hf hs => ?_, fun v hv => ?_⟩
  · rw [CpuIface.setInput_get, envCell, raowi_of_staticRaowi hs (u.inputs.set b i), Bool.not_true, Bool.and_false,
      if_neg Bool.false_ne_true]
    exact hone f hf hs
  · rw [CpuIface.setInput_reserved]
    exact hres v hv

/-- A write of the other name of `CBPR` keeps a copy well-formed: `CBPR` is never RAO/WI. -/
theorem CpuIface.Wf.writeCbprEl1ns {c : Config} {u : CpuIface} (h : u.Wf c) (b : Bool) : (u.writeCbprEl1ns b).Wf c := by
  obtain ⟨hone, hres⟩ := h
  refine ⟨fun f hf hs => ?_, fun v hv => ?_⟩
  · have hne : f ≠ .cbpr := by rintro rfl; cases hs
    rw [CpuIface.writeCbprEl1ns_get, if_neg hne]
    exact hone f hf hs
  · rw [CpuIface.writeCbprEl1ns_reserved]
    exact hres v hv

/-- Whatever a step leaves in the copy of the event's PE is well-formed if the copy was. -/
theorem CopyStep.wf {s : State} {e : Event} {u w : CpuIface} (h : CopyStep s e u w) (hu : u.Wf s.cfg) : w.Wf s.cfg := by
  cases h with
  | kept => exact hu
  | written d v _ => exact hu.write v d
  | reset _ => exact ⟨CpuIface.reset_raowiCellsHoldOne _ u, CpuIface.reset_reservedWf _ u⟩
  | input i b _ => exact hu.setInput i b
  | otherName b _ => exact hu.writeCbprEl1ns b

/-- Settles O36: a step with no event changes nothing; one at an event replaces a copy by a well-formed one. -/
theorem everyStepKeepsTheInvariant : Obligations.EveryStepKeepsTheInvariant := by
  intro s t hinv h
  cases hq : s.queue with
  | nil =>
    cases (step_of_no_event hq).symm.trans h
    exact hinv
  | cons e rest =>
    obtain ⟨hwf, hlen, -, hcopies⟩ := s.inv_iff.1 hinv
    obtain ⟨hcfg, hpe, -, u, w, hu, hstep, hcpus⟩ := step_replaces_copy hq h
    obtain ⟨hlt, -⟩ := List.getElem?_eq_some_iff.1 hu
    rw [State.inv_iff, hcfg, hpe, hcpus, List.length_set]
    refine ⟨hwf, hlen, hlen ▸ hlt, fun w' hw' => ?_⟩
    rcases List.mem_or_eq_of_mem_set hw' with hmem | rfl
    · exact hcopies w' hmem
    · exact hstep.wf (hcopies u (List.mem_of_getElem? hu))

/-- Settles O34: `State.reset` is the start of a run of the default configuration, which is well formed. -/
theorem invariantHoldsAtReset : Obligations.InvariantHoldsAtReset := by
  rw [Obligations.InvariantHoldsAtReset, reset_eq_init]
  exact State.init_inv (by decide) _

/-! ### What can change a cell (R44, R90, R93, R94) -/

/-- A cell that a write changes is one its view holds, whose field is not RAO/WI, and it then holds the written bit. -/
theorem CpuIface.write_get_of_ne {c : Config} {u : CpuIface} {v : View} {d : Word} {f : Field}
    (h : (u.write c v d).cells.get f ≠ u.cells.get f) :
    ∃ k, pos c.layout v f = some k ∧ raowi c u.inputs f = false ∧
      (u.write c v d).cells.get f = .known (d.getLsbD k) := by
  have hraowi : raowi c u.inputs f = false :=
    Bool.eq_false_iff.2 fun hr => h (CpuIface.write_get_of_raowi hr v d)
  rw [CpuIface.write_get] at h ⊢
  cases hp : pos c.layout v f with
  | none => exact absurd (writtenCell_off hp u d) h
  | some k => exact ⟨k, rfl, hraowi, writtenCell_of_not_raowi hp hraowi d⟩

/-- A cell that a new input changes is one whose being RAO/WI it ends, and it is then UNKNOWN (R93). -/
theorem CpuIface.setInput_get_of_ne {c : Config} {u : CpuIface} {i : Input} {b : Bool} {f : Field}
    (h : (u.setInput c i b).cells.get f ≠ u.cells.get f) :
    raowi c u.inputs f = true ∧ raowi c (u.setInput c i b).inputs f = false ∧
      (u.setInput c i b).cells.get f = .unknown := by
  rw [CpuIface.setInput_get, envCell] at h ⊢
  split at h
  · next hend =>
    rw [if_pos hend]
    simp only [Bool.and_eq_true, Bool.not_eq_true'] at hend
    exact ⟨hend.1, hend.2, rfl⟩
  · exact absurd rfl h

/-- A cell that a write of the other name of `CBPR` changes is `CBPR` (R94). -/
theorem CpuIface.writeCbprEl1ns_get_of_ne {u : CpuIface} {b : Bool} {f : Field}
    (h : (u.writeCbprEl1ns b).cells.get f ≠ u.cells.get f) : f = .cbpr := by
  by_contra hf
  rw [CpuIface.writeCbprEl1ns_get, if_neg hf] at h
  exact h rfl

/-- Settles O37: only the copy of the event's PE can change, and each way it can be replaced changes a cell for its own
cause. -/
theorem cellChangesOnlyForAStatedCause : Obligations.CellChangesOnlyForAStatedCause := by
  intro s t p u w f h hu hw hne
  cases hq : s.queue with
  | nil =>
    cases (step_of_no_event hq).symm.trans h
    exact absurd (congrArg (·.cells.get f) (Option.some.inj (hw.symm.trans hu))) hne
  | cons e rest =>
    obtain ⟨-, rfl⟩ | ⟨rfl, hstep⟩ := step_copy hq h hu hw
    · exact absurd rfl hne
    refine ⟨e, rest, rfl, rfl, ?_⟩
    cases hstep with
    | kept => exact absurd rfl hne
    | written d v ha =>
      obtain ⟨k, hk, hr, hcell⟩ := CpuIface.write_get_of_ne hne
      exact .inr (.inl ⟨d, v, k, ha, hk, hr, hcell⟩)
    | reset ha => exact .inl ⟨ha, CpuIface.reset_get _ _ f⟩
    | input i b ha =>
      obtain ⟨hr, hr', hcell⟩ := CpuIface.setInput_get_of_ne hne
      exact .inr (.inr (.inl ⟨i, b, ha, hr, hr', hcell⟩))
    | otherName b ha => exact .inr (.inr (.inr ⟨CpuIface.writeCbprEl1ns_get_of_ne hne, b, ha, rfl⟩))

end Sys2Proof.Machine

/-! ### R49, R70: the Non-secure view, and isolation -/

namespace Sys2Proof.Machine

/-- The Non-secure view holds none of the Secure-only fields and every shared one, in every layout (R16). -/
theorem pos_ns_eq_none_iff {l : Layout} {f : Field} : pos l .ns f = none ↔ f ∈ secureOnly := by
  cases f <;> simp [pos, secureOnly]

theorem pos_ns_isSome (l : Layout) (f : Field) : (pos l .ns f).isSome = decide (f ∈ sharedFields) := by
  cases f <;> rfl

theorem mem_sharedFields_of_pos_ns {l : Layout} {f : Field} {k : Nat} (h : pos l .ns f = some k) :
    f ∈ sharedFields := by
  simpa [h] using pos_ns_isSome l f

/-- With `BANKED = 1` R51 selects for a Non-secure access the Non-secure view or the absent register. -/
theorem selectView_nonsecure {c : Config} (h : c.banked = true) (x : Inputs) :
    selectView c x true = .ns ∨ selectView c x true = .absent := by
  simp only [selectView, h, Bool.true_eq_false, if_false, if_true]
  split_ifs
  · exact .inr rfl
  · exact .inr rfl
  · exact .inl rfl

/-- With `BANKED = 1` a Non-secure bus access is an operation of the Non-secure view or the absent register (R49). -/
theorem view_of_nonsecure_bus {s : State} {a : BusAccess} {i : Instr} (hb : s.cfg.banked = true) (hns : a.ns = true)
    (h : accessInstr s (.bus a) = some (.ok i)) : i.view = .ns ∨ i.view = .absent := by
  obtain ⟨u, -, ⟨b, hact, rfl⟩ | ⟨bytes, tail, hact, -, -⟩⟩ := accessInstr_ok h
  · cases hact
    rw [opInstr_view, hns]
    exact selectView_nonsecure hb u.inputs
  · cases hact

/-- A write through the Non-secure view or the absent register keeps every Secure-only cell. -/
theorem CpuIface.write_get_secureOnly {c : Config} {u : CpuIface} {v : View} {f : Field} (hv : v = .ns ∨ v = .absent)
    (hf : f ∈ secureOnly) (d : Word) : (u.write c v d).cells.get f = u.cells.get f := by
  have hp : pos c.layout v f = none := by
    rcases hv with rfl | rfl
    · exact pos_ns_eq_none_iff.2 hf
    · rfl
  rw [CpuIface.write_get, writtenCell_off hp]

/-- What a Non-secure bus access leaves in the copy of its PE keeps the Secure-only cells. -/
theorem CopyStep.get_secureOnly {s : State} {p : Nat} {a : BusAccess} {u w : CpuIface} {f : Field}
    (h : CopyStep s ⟨p, .bus a⟩ u w) (hb : s.cfg.banked = true) (hns : a.ns = true) (hf : f ∈ secureOnly) :
    w.cells.get f = u.cells.get f := by
  cases h with
  | kept => rfl
  | written d v ha =>
    have hv := view_of_nonsecure_bus (s := s.turn p) hb hns ha
    rw [wrInstr_view] at hv
    exact CpuIface.write_get_secureOnly hv hf d
  | reset ha => cases ha
  | input i b ha => cases ha
  | otherName b ha => cases ha

/-- Settles O38: of every PE's copy, only that of the access's PE is replaced, by one with the same Secure-only cells. -/
theorem nonSecureAccessKeepsSecureOnlyCells : Obligations.NonSecureAccessKeepsSecureOnlyCells := by
  intro s t p a rest q u w f hb hns hq h hu hw hf
  obtain ⟨-, rfl⟩ | ⟨-, hstep⟩ := step_copy hq h hu hw
  · rfl
  · exact hstep.get_secureOnly hb hns hf

/-- What is placed at the bits of a view depends on its own fields alone (R52). -/
theorem placeAll_congr {l : Layout} {v : View} {b b' : Nat → Field → Bool}
    (h : ∀ f p, pos l v f = some p → b p f = b' p f) : placeAll l v b = placeAll l v b' := by
  have hplace : place l v b = place l v b' := by
    funext f
    unfold place
    split
    · next p hp => rw [h f p hp]
    · rfl
  rw [placeAll, placeAll, hplace]

/-! ### Copies that look the same to Non-secure accesses, under each change of a copy -/

section
variable {u w : CpuIface} (h : u.NsEquiv w)
include h

/-- A write through any view leaves such copies such: what it leaves in a cell depends on that cell, the inputs and
`DATA`. -/
theorem CpuIface.NsEquiv.write (c : Config) (v : View) (d : Word) : (u.write c v d).NsEquiv (w.write c v d) := by
  obtain ⟨hcells, hres, hin⟩ := h
  refine ⟨fun f hf => ?_, ?_, by rw [CpuIface.write_inputs, CpuIface.write_inputs, hin]⟩
  · simp only [CpuIface.write_get, writtenCell, hcells f hf, hin]
  · cases v <;> simp only [CpuIface.write, hres]

theorem CpuIface.NsEquiv.reset (c : Config) : (u.reset c).NsEquiv (w.reset c) := by
  obtain ⟨-, -, hin⟩ := h
  exact ⟨fun f _ => by rw [CpuIface.reset_get, CpuIface.reset_get], rfl, hin⟩

theorem CpuIface.NsEquiv.setInput (c : Config) (i : Input) (b : Bool) :
    (u.setInput c i b).NsEquiv (w.setInput c i b) := by
  obtain ⟨hcells, hres, hin⟩ := h
  refine ⟨fun f hf => ?_, hres, by rw [CpuIface.setInput_inputs, CpuIface.setInput_inputs, hin]⟩
  simp only [CpuIface.setInput_get, envCell, hcells f hf, hin]

theorem CpuIface.NsEquiv.writeCbprEl1ns (b : Bool) : (u.writeCbprEl1ns b).NsEquiv (w.writeCbprEl1ns b) := by
  obtain ⟨hcells, hres, hin⟩ := h
  refine ⟨fun f hf => ?_, hres, hin⟩
  simp only [CpuIface.writeCbprEl1ns_get, hcells f hf]

/-- A read through the Non-secure view returns the same from such copies: it packs shared fields and that view's
reserved cells. -/
theorem CpuIface.NsEquiv.pack_ns (c : Config) (drawn : Word) : pack c u drawn .ns = pack c w drawn .ns := by
  obtain ⟨hcells, hres, hin⟩ := h
  have heff : ∀ f ∈ sharedFields, eff c u f = eff c w f := fun f hf => by simp only [eff, hcells f hf, hin]
  have hfields := placeAll_congr (l := c.layout) (v := .ns) (b := fun p f => (eff c u f).get (drawn.getLsbD p))
    (b' := fun p f => (eff c w f).get (drawn.getLsbD p)) fun f p hp => by rw [heff f (mem_sharedFields_of_pos_ns hp)]
  have hreserved : reservedBits c u drawn .ns = reservedBits c w drawn .ns := by
    simp only [reservedBits, CpuIface.reserved, hres]
  rw [pack, pack, hfields, hreserved]

end

/-! ### States that look the same to Non-secure accesses, under each operation on the state -/

section
variable {s t : State} (h : s.NsEquiv t)
include h

theorem State.NsEquiv.cfg_eq : s.cfg = t.cfg := by
  obtain ⟨hcfg, -⟩ := h
  exact hcfg

theorem State.NsEquiv.queue_eq : s.queue = t.queue := by
  obtain ⟨-, -, hqueue, -⟩ := h
  exact hqueue

theorem State.NsEquiv.draws_eq : s.draws = t.draws := by
  obtain ⟨-, -, -, -, hdraws, -⟩ := h
  exact hdraws

theorem State.NsEquiv.length_eq : s.cpus.length = t.cpus.length := by
  obtain ⟨-, -, -, -, -, hlen, -⟩ := h
  exact hlen

theorem State.NsEquiv.turn (p : Nat) : (s.turn p).NsEquiv (t.turn p) := by
  obtain ⟨hcfg, -, hrest⟩ := h
  exact ⟨hcfg, rfl, hrest⟩

theorem State.NsEquiv.answer (r : Option Word) : (s.answer r).NsEquiv (t.answer r) := by
  obtain ⟨hcfg, hpe, hqueue, -, hrest⟩ := h
  exact ⟨hcfg, hpe, hqueue, rfl, hrest⟩

theorem State.NsEquiv.spend : s.spend.NsEquiv t.spend := by
  obtain ⟨hcfg, hpe, hqueue, hresp, hdraws, hrest⟩ := h
  exact ⟨hcfg, hpe, hqueue, hresp, congrArg (· + 1) hdraws, hrest⟩

theorem State.NsEquiv.retire : s.retire.NsEquiv t.retire := by
  obtain ⟨hcfg, hpe, hqueue, hrest⟩ := h
  exact ⟨hcfg, hpe, congrArg List.tail hqueue, hrest⟩

/-- Replacing the served copies by ones that look the same. -/
theorem State.NsEquiv.put {u w : CpuIface} (huw : u.NsEquiv w) : (s.put u).NsEquiv (t.put w) := by
  obtain ⟨hcfg, hpe, hqueue, hresp, hdraws, hlen, hcopies⟩ := h
  refine ⟨hcfg, hpe, hqueue, hresp, hdraws, by simp [hlen], fun p u' w' hu' hw' => ?_⟩
  rw [State.put_cpus, List.getElem?_set] at hu' hw'
  rw [← hpe, ← hlen] at hw'
  split_ifs at hu' hw' with hp
  · cases hu'
    cases hw'
    exact huw
  · exact hcopies p u' w' hu' hw'

/-- The served PE has a copy in both states, and these look the same, or in neither. -/
theorem State.NsEquiv.current :
    (s.current = none ∧ t.current = none) ∨ ∃ u w, s.current = some u ∧ t.current = some w ∧ u.NsEquiv w := by
  obtain ⟨-, hpe, -, -, -, hlen, hcopies⟩ := h
  by_cases hlt : s.pe < s.cpus.length
  · have hu := List.getElem?_eq_getElem hlt
    have hw := List.getElem?_eq_getElem (l := t.cpus) (i := s.pe) (hlen ▸ hlt)
    exact .inr ⟨_, _, hu, by rw [State.current, ← hpe, hw], hcopies _ _ _ hu hw⟩
  · exact .inl ⟨List.getElem?_eq_none (Nat.not_lt.1 hlt), List.getElem?_eq_none (by omega)⟩

/-- An access is the same operation, or is refused for the same reason, in both: it depends on the configuration and the
inputs (R51, R53). -/
theorem State.NsEquiv.accessInstr_eq (a : Action) : accessInstr s a = accessInstr t a := by
  have hcfg := h.cfg_eq
  cases a with
  | bus b =>
    obtain ⟨hu, hw⟩ | ⟨u, w, hu, hw, -, -, hin⟩ := h.current
    · simp only [accessInstr, busInstr, hu, hw]
    · simp only [accessInstr, busInstr, hu, hw, hcfg, hin]
  | present bytes =>
    obtain ⟨hu, hw⟩ | ⟨u, w, hu, hw, -, -, hin⟩ := h.current
    · simp only [accessInstr, presentedInstr, hu, hw]
    · simp only [accessInstr, presentedInstr, hu, hw, hcfg, hin]
  | reset => rfl
  | setInput i b => rfl
  | writeCbprEl1ns b => rfl

end

/-- Two outcomes that a Non-secure observer does not tell apart: next states that look the same to Non-secure accesses,
or the same refusal. -/
def EndAlike (o o' : Host.Outcome State Fault Refusal) : Prop :=
  (∃ s t, o = .next s ∧ o' = .next t ∧ s.NsEquiv t) ∨ ∃ r, o = .refused r ∧ o' = .refused r

section
variable {s t : State} (h : s.NsEquiv t)
include h

/-- A change of the served copy ends alike if it leaves copies that look the same such. -/
theorem State.NsEquiv.onCurrent {f g : CpuIface → CpuIface} (hfg : ∀ u w, u.NsEquiv w → (f u).NsEquiv (g w)) :
    EndAlike (onCurrent f s) (onCurrent g t) := by
  obtain ⟨hu, hw⟩ | ⟨u, w, hu, hw, huw⟩ := h.current
  · exact .inr ⟨.noSuchPe, by simp only [Machine.onCurrent, hu], by simp only [Machine.onCurrent, hw]⟩
  · simp only [Machine.onCurrent, hu, hw]
    exact .inl ⟨_, _, rfl, rfl, ((h.put (hfg u w huw)).answer none).retire⟩

/-- A write through any view ends alike. -/
theorem State.NsEquiv.writeView (v : View) (d : Word) : EndAlike (writeView v d s) (writeView v d t) := by
  have hfg : ∀ u w : CpuIface, u.NsEquiv w → (u.write s.cfg v d).NsEquiv (w.write t.cfg v d) :=
    fun u w huw => h.cfg_eq ▸ huw.write s.cfg v d
  exact h.onCurrent hfg

/-- A read through the Non-secure view ends alike: the value returned is the same. -/
theorem State.NsEquiv.readView_ns : EndAlike (readView .ns s) (readView .ns t) := by
  obtain ⟨hu, hw⟩ | ⟨u, w, hu, hw, huw⟩ := h.current
  · exact .inr ⟨.noSuchPe, by simp only [readView, hu], by simp only [readView, hw]⟩
  · rw [readView_of_current .ns hu, readView_of_current .ns hw]
    rw [← h.cfg_eq, ← h.draws_eq, ← huw.pack_ns]
    exact .inl ⟨_, _, rfl, rfl, ((h.answer _).spend).retire⟩

/-- Every operation but the reads of the Secure and the single-state view ends alike. -/
theorem State.NsEquiv.exec {i : Instr} (hs : i ≠ .rdS) (hone : i ≠ .rd1s) : EndAlike (exec i s) (exec i t) := by
  cases i with
  | rdAbsent => exact .inl ⟨_, _, rfl, rfl, (h.answer _).retire⟩
  | wrAbsent d => exact .inl ⟨_, _, rfl, rfl, (h.answer _).retire⟩
  | rdNs => exact h.readView_ns
  | rdS => exact absurd rfl hs
  | rd1s => exact absurd rfl hone
  | wrNs d => exact h.writeView .ns d
  | wrS d => exact h.writeView .s d
  | wr1s d => exact h.writeView .oneState d

/-- With `BANKED = 1` an access that is not `RD.S` ends alike: `RD.1S` cannot occur. -/
theorem State.NsEquiv.runAccess (hb : s.cfg.banked = true) {a : Action} {r : Except Refusal Instr}
    (ha : accessInstr s a = some r) (hs : accessInstr s a ≠ some (.ok .rdS)) :
    EndAlike (runAccess r s) (runAccess r t) := by
  cases r with
  | error e => exact .inr ⟨e, rfl, rfl⟩
  | ok i =>
    have hocc := onlyOccurringOperationsRun s a i ha
    rw [ha] at hs
    refine h.exec (fun hi => hs (by rw [hi])) fun hi => ?_
    rw [hi, Instr.occursIn, hb, Bool.not_true, Bool.and_false] at hocc
    cases hocc

/-- With `BANKED = 1` serving any event but an `RD.S` ends alike. -/
theorem State.NsEquiv.serve (hb : s.cfg.banked = true) {a : Action} (hs : accessInstr s a ≠ some (.ok .rdS)) :
    EndAlike (serve a s) (serve a t) := by
  have hinstr := h.accessInstr_eq a
  have hcfg := h.cfg_eq
  cases a with
  | bus b =>
    rw [Machine.serve, Machine.serve, ← Option.some.inj hinstr]
    exact h.runAccess hb rfl hs
  | present bytes =>
    rw [Machine.serve, Machine.serve, ← Option.some.inj hinstr]
    exact h.runAccess hb rfl hs
  | reset => exact h.onCurrent fun u w huw => hcfg ▸ huw.reset s.cfg
  | setInput i b => exact h.onCurrent fun u w huw => hcfg ▸ huw.setInput s.cfg i b
  | writeCbprEl1ns b => exact h.onCurrent fun u w huw => huw.writeCbprEl1ns b

/-- With `BANKED = 1` a step at any event but an `RD.S` ends alike. -/
theorem State.NsEquiv.step {e : Event} {rest : List Event} (hb : s.cfg.banked = true) (hq : s.queue = e :: rest)
    (hs : accessInstr (s.turn e.pe) e.act ≠ some (.ok .rdS)) : EndAlike (step s) (step t) := by
  simp only [Machine.step, ← h.queue_eq, hq, ← h.length_eq]
  split
  · exact (h.turn e.pe).serve hb hs
  · exact .inr ⟨_, rfl, rfl⟩

end

/-- Settles O39: a step at an event serves it for its PE, which ends alike in states that look the same to Non-secure
accesses; and R51 gives a Non-secure access the Non-secure view or the absent register. -/
theorem onlySecureReadsRevealSecureOnlyCells : Obligations.OnlySecureReadsRevealSecureOnlyCells := by
  refine ⟨fun s t e rest hb h hq hs => ?alike, fun s a i hb hns hi => ?views⟩
  case alike =>
    obtain ⟨s', t', hs', ht', h'⟩ | ⟨r, hr, hr'⟩ := h.step hb hq hs
    · simp only [hs', ht']
      exact h'
    · simp only [hr, hr']
  case views => exact view_of_nonsecure_bus hb hns (congrArg some hi)

/-! ### Isolation over runs -/

/-- An event that cannot be `RD.S` while `BANKED = 1`, as its bytes, its Security state or its direction show. -/
def Event.NoSecureRead (e : Event) : Prop :=
  (match e.act with
    | .present bytes => decide ((decode bytes).toOption.map Prod.fst ≠ some .rdS)
    | .bus a => a.ns || decide (a.op ≠ .read)
    | _ => true) = true

/-- Such an event is never `RD.S`. -/
theorem Event.NoSecureRead.accessInstr_ne {e : Event} (h : e.NoSecureRead) {s : State} (hb : s.cfg.banked = true) :
    accessInstr s e.act ≠ some (.ok .rdS) := by
  intro hi
  obtain ⟨u, -, ⟨a, ha, hinstr⟩ | ⟨bytes, tail, ha, hd, -⟩⟩ := accessInstr_ok hi
  · rw [Event.NoSecureRead, ha] at h
    rw [ha] at hi
    rcases Bool.or_eq_true_iff.1 h with hns | hop
    · rcases view_of_nonsecure_bus hb hns hi with hv | hv <;> cases hv
    · cases hw : a.op with
      | read => simp [hw] at hop
      | write d =>
        have hdata := congrArg Instr.data hinstr
        rw [hw, opInstr, wrInstr_data] at hdata
        cases hdata
  · rw [Event.NoSecureRead, ha] at h
    simp [hd, Except.toOption] at h

/-- With `BANKED = 1`, `k` steps over events none of which is a Secure read end alike. -/
theorem State.NsEquiv.runSteps (k : Nat) {s t : State} (hb : s.cfg.banked = true) (h : s.NsEquiv t)
    (hq : ∀ e ∈ s.queue, e.NoSecureRead) : EndAlike (runSteps k s) (runSteps k t) := by
  induction k generalizing s t with
  | zero => exact .inl ⟨s, t, rfl, rfl, h⟩
  | succ k ih =>
    cases hqueue : s.queue with
    | nil =>
      have hs : Machine.step s = .next s := step_of_no_event hqueue
      have ht : Machine.step t = .next t := step_of_no_event (h.queue_eq ▸ hqueue)
      simp only [Machine.runSteps, hs, ht]
      exact ih hb h hq
    | cons e rest =>
      have hne := (hq e (by simp [hqueue])).accessInstr_ne (s := s.turn e.pe) hb
      obtain ⟨s', t', hs', ht', h'⟩ | ⟨r, hr, hr'⟩ := h.step hb hqueue hne
      · obtain ⟨hcfg, -, hrest, -⟩ := step_replaces_copy hqueue hs'
        simp only [Machine.runSteps, hs', ht']
        exact ih (hcfg ▸ hb) h' fun e' he' => hq e' (by rw [hqueue, ← hrest]; exact List.mem_cons_of_mem _ he')
      · simp only [Machine.runSteps, hr, hr']
        exact .inr ⟨r, rfl, rfl⟩

/-- Settles O40: no event of such a queue is `RD.S`, so each step ends alike, by induction over the steps. -/
theorem runsWithoutSecureReadsRevealNothing : Obligations.RunsWithoutSecureReadsRevealNothing := by
  intro k s t hb h hq
  obtain ⟨s', t', hs', ht', h'⟩ | ⟨r, hr, hr'⟩ := h.runSteps k hb hq
  · simp only [hs', ht']
    exact h'
  · simp only [hr, hr']

end Sys2Proof.Machine

/-! ### R31, R90, R93, R94: resets and the environment's steps -/

namespace Sys2Proof.Machine

/-- A step at an event that is no access replaces the copy of the event's PE, answers nothing and retires the event. -/
theorem step_of_onCurrent {s : State} {p : Nat} {u : CpuIface} {rest : List Event} {act : Action}
    {f : CpuIface → CpuIface} (hq : s.queue = ⟨p, act⟩ :: rest) (hu : s.cpus[p]? = some u)
    (hact : serve act (s.turn p) = onCurrent f (s.turn p)) :
    step s = .next { s with pe := p, cpus := s.cpus.set p (f u), resp := none, queue := rest } := by
  rw [step_of_copy hq hu, hact, onCurrent, State.turn_current, hu]
  simp only [State.put, State.answer, State.retire, State.turn, hq, List.tail_cons]

/-- Settles O30: the reset event replaces the copy of its PE by the reset one, and a run starts with such copies. -/
theorem resetEventSetsEveryCell : Obligations.ResetEventSetsEveryCell := by
  unfold Obligations.ResetEventSetsEveryCell
  intro left
  have hleft : ∀ (c : Config) (u : CpuIface), left c (u.reset c) := fun c u =>
    ⟨fun f => CpuIface.reset_get c u f, fun v hv => CpuIface.reset_reserved c u v hv⟩
  refine ⟨fun s p u rest hq hu => ?event, fun c x => ⟨List.length_replicate, fun u hu => ?init⟩⟩
  case event => exact ⟨u.reset s.cfg, step_of_onCurrent hq hu rfl, hleft s.cfg u, rfl⟩
  case init =>
    rw [List.eq_of_mem_replicate hu]
    exact ⟨hleft c _, rfl⟩

/-- Settles O31: the one copy of `State.reset` is written out. -/
theorem resetStateHoldsUnknownCells : Obligations.ResetStateHoldsUnknownCells := by
  refine ⟨List.cons_ne_nil _ _, fun u hu => ?_⟩
  rw [List.mem_singleton.1 hu]
  exact ⟨fun f => by cases f <;> rfl, rfl, rfl, rfl⟩

/-- Setting an input sets that one and no other (R93). -/
theorem Inputs.get_set (x : Inputs) (b : Bool) (i j : Input) : (x.set b i).get j = if j = i then b else x.get j := by
  cases i <;> cases j <;> rfl

/-- `SRE`, `SRE_EL1` and the two signalling inputs make no field RAO/WI (R19, R94). -/
theorem raowi_set_of_not_source {i : Input}
    (h : i = .sre ∨ i = .sreEl1 ∨ i = .irqSignallingDisabled ∨ i = .fiqSignallingDisabled) (c : Config) (x : Inputs)
    (b : Bool) (f : Field) : raowi c (x.set b i) f = raowi c x f := by
  rcases h with rfl | rfl | rfl | rfl <;> cases f <;> rfl

/-- A new input that ends no field's being RAO/WI changes no cell (R93). -/
theorem CpuIface.setInput_cells {c : Config} {u : CpuIface} {i : Input} {b : Bool}
    (h : ∀ f, raowi c (u.inputs.set b i) f = raowi c u.inputs f) : (u.setInput c i b).cells = u.cells := by
  refine FieldTable.ext_get fun f => ?_
  rw [CpuIface.setInput_get, envCell, h f, Bool.and_not_self, if_neg Bool.false_ne_true]

/-- Settles O32: the step replaces the copy by one with the input set and the cells of `envCell`. -/
theorem inputStepForgetsOnlyEndedRaowiCells : Obligations.InputStepForgetsOnlyEndedRaowiCells := by
  intro s p u i b rest hq hu
  refine ⟨u.setInput s.cfg i b, step_of_onCurrent hq hu rfl, Inputs.get_set u.inputs b i, fun f => ?cells,
    u.setInput_reserved s.cfg i b, fun hi => CpuIface.setInput_cells (raowi_set_of_not_source hi s.cfg u.inputs b)⟩
  case cells =>
    rw [CpuIface.setInput_get]
    exact if_congr (by simp) rfl rfl

/-- A read of the other name finds the cell of `CBPR` where the PE has a copy and the register is there (R14). -/
theorem cbprEl1ns_of_copy {s : State} {p : Nat} {u : CpuIface} (hu : s.cpus[p]? = some u)
    (hl : s.cfg.hasLegacy = true) : cbprEl1ns s p = some (u.cells.get .cbpr) := by
  simp only [cbprEl1ns, hu, hl, if_true]
  rfl

/-- After a write through a view that holds `CBPR`, a read of its other name finds the written bit (R14). -/
theorem exec_wrInstr_cbprEl1ns {s : State} {u : CpuIface} {v : View} {k : Nat} (hp : pos s.cfg.layout v .cbpr = some k)
    (hu : s.current = some u) (hl : s.cfg.hasLegacy = true) (d : Word) :
    ∃ t, exec (wrInstr d v) s = .next t ∧ cbprEl1ns t s.pe = some (.known (d.getLsbD k)) := by
  obtain ⟨t, ht, hcur⟩ := exec_wrInstr_current (ne_absent_of_pos hp) d hu
  obtain ⟨hcfg, hpe, -, -⟩ := exec_frame ht
  refine ⟨t, ht, ?_⟩
  rw [← hpe, cbprEl1ns_of_copy hcur (hcfg ▸ hl), CpuIface.write_get,
    writtenCell_of_not_raowi hp (raowi_cbpr s.cfg u.inputs)]

/-- Settles O33: the event replaces the copy by one with `CBPR` set, and both views that hold `CBPR` write its cell. -/
theorem cbprIsOneCellWithItsOtherName : Obligations.CbprIsOneCellWithItsOtherName := by
  refine ⟨fun s p u b rest hq hu => ⟨_, step_of_onCurrent hq hu rfl, rfl, fun hl => ?found⟩, fun s u d hu hl =>
    ⟨exec_wrInstr_cbprEl1ns (v := .s) rfl hu hl d, exec_wrInstr_cbprEl1ns (v := .oneState) rfl hu hl d⟩⟩
  case found =>
    obtain ⟨hlt, -⟩ := List.getElem?_eq_some_iff.1 hu
    exact cbprEl1ns_of_copy (u := u.writeCbprEl1ns b) (List.getElem?_set_self hlt) hl

/-! ### R16 to R18: the layouts -/

/-- In a well-formed layout no field stands at bit 31. -/
theorem pos_le {l : Layout} (h : l.wf = true) {v : View} {f : Field} {p : Nat} (hp : pos l v f = some p) : p ≤ 30 := by
  simp only [Layout.wf, Layout.nsOk, Layout.sOk, Layout.oneOk, Bool.and_eq_true, decide_eq_true_eq] at h
  cases v <;> cases f <;> simp only [pos, Option.some.injEq, reduceCtorEq] at hp <;> omega

/-- Settles O48: the bounds of a well-formed layout keep positions apart and below bit 31; which fields a view holds
does not depend on the layout. -/
theorem layoutsKeepFieldsApart : Obligations.LayoutsKeepFieldsApart :=
  fun _ h => ⟨fun _ _ _ hp => pos_le h hp, fun _ _ _ _ hf hg => pos_inj h hf hg, rfl, rfl, rfl⟩

/-- Settles O47: a fixed layout, whose masks are computed. -/
theorem defaultLayoutMasks : Obligations.DefaultLayoutMasks := by
  rw [Obligations.DefaultLayoutMasks]
  decide

end Sys2Proof.Machine

/-! ### R19, R30, R44, R52: what a read returns after a write, and a write after a read -/

namespace Sys2Proof.Machine

/-- A write and then a read: the read packs the written copy. -/
theorem exec_wrInstr_then_rdInstr {s : State} {u : CpuIface} {v v' : View} (hv : v ≠ .absent) (hv' : v' ≠ .absent)
    (d : Word) (hu : s.current = some u) :
    ∃ t t', exec (wrInstr d v) s = .next t ∧ exec (rdInstr v') t = .next t' ∧
      t'.resp = some (pack s.cfg (u.write s.cfg v d) (Config.freeWord s.draws) v') := by
  have hwrite := (exec_wrInstr hv d s).trans (writeView_of_current v d hu)
  have hcur : (((s.put (u.write s.cfg v d)).answer none).retire).current = some (u.write s.cfg v d) :=
    State.put_current _ hu
  exact ⟨_, _, hwrite, (exec_rdInstr hv' _).trans (readView_of_current v' hcur), rfl⟩

/-- A write through one view and a read through another that holds the field: the written bit, or 1 if it is RAO/WI. -/
theorem getLsbD_pack_write {c : Config} (h : c.layout.wf = true) {v v' : View} {f : Field} {p p' : Nat}
    (hp : pos c.layout v f = some p) (hp' : pos c.layout v' f = some p') (u : CpuIface) (d drawn : Word) :
    (pack c (u.write c v d) drawn v').getLsbD p' = (raowi c u.inputs f || d.getLsbD p) := by
  rw [getLsbD_pack_at h _ _ hp', eff_write_at hp, Stored.get_known]

/-- Settles O22: one cell, written at its position in one view and read at its position in the other. -/
theorem sharedFieldsAreOneCellInBothViews : Obligations.SharedFieldsAreOneCellInBothViews := by
  intro s u d f pn ps hwf hu hpn hps
  obtain ⟨t, t', ht, ht', hresp⟩ := exec_wrInstr_then_rdInstr (v := .ns) (v' := .s) (by decide) (by decide) d hu
  obtain ⟨w, w', hw, hw', hresp'⟩ := exec_wrInstr_then_rdInstr (v := .s) (v' := .ns) (by decide) (by decide) d hu
  exact ⟨⟨t, t', _, ht, ht', hresp, getLsbD_pack_write hwf hpn hps u d _⟩,
    ⟨w, w', _, hw, hw', hresp', getLsbD_pack_write hwf hps hpn u d _⟩⟩

/-- Masking a view's fields off clears a field's bit. -/
theorem getLsbD_and_not_mask_at {l : Layout} (h : l.wf = true) {v : View} {f : Field} {k : Nat}
    (hp : pos l v f = some k) (d : Word) : (d &&& ~~~mask l v).getLsbD k = false := by
  simp [getLsbD_mask_at h hp]

/-- Masking a view's fields off keeps a reserved bit. -/
theorem getLsbD_and_not_mask_off {l : Layout} {v : View} {k : Nat} (hk : k < 32) (hn : ∀ f, pos l v f ≠ some k)
    (d : Word) : (d &&& ~~~mask l v).getLsbD k = d.getLsbD k := by
  rw [getLsbD_and_not_mask d hk (iff_true_intro hn), decide_true, Bool.and_true]

/-- The word read back after a write through the same view (R19, R30, R52). -/
theorem pack_write {c : Config} (h : c.layout.wf = true) {v : View} (hv : v ≠ .absent) (u : CpuIface) (d drawn : Word) :
    pack c (u.write c v d) drawn v =
      (match c.res0Mode with | .hardwired => d &&& mask c.layout v | .stored => d) ||| raowiMask c u.inputs v := by
  refine BitVec.eq_of_getLsbD_eq fun k hk => ?_
  rw [BitVec.getLsbD_or]
  by_cases hf : ∃ f, pos c.layout v f = some k
  · obtain ⟨f, hp⟩ := hf
    have hraowi : (raowiMask c u.inputs v).getLsbD k = raowi c u.inputs f := getLsbD_placeAll_at h _ hp
    rw [getLsbD_pack_write h hp hp, hraowi]
    cases c.res0Mode <;> simp [getLsbD_mask_at h hp, Bool.or_comm]
  · have hn : ∀ f, pos c.layout v f ≠ some k := fun f hp => hf ⟨f, hp⟩
    have hraowi : (raowiMask c u.inputs v).getLsbD k = false := getLsbD_placeAll_off _ hn
    rw [getLsbD_pack_off _ _ hk hn, hraowi, CpuIface.write_reserved, if_pos ⟨rfl, hv⟩]
    cases hm : c.res0Mode with
    | hardwired => simp [getLsbD_mask_off hn]
    | stored =>
      simp only [writtenReserved_of_stored hm, Stored.get_known, getLsbD_and_not_mask_off hk hn, Bool.or_false]

/-- Settles O23: the read packs the written copy, whose bits are those of the written word. -/
theorem readAfterWriteReturnsTheWord : Obligations.ReadAfterWriteReturnsTheWord := by
  intro s u v d hwf hu hv
  obtain ⟨t, t', ht, ht', hresp⟩ := exec_wrInstr_then_rdInstr hv hv d hu
  refine ⟨t, t', ht, ht', ?_⟩
  rw [hresp, pack_write hwf hv]
  cases s.cfg.res0Mode <;> rfl

/-- A bit of a read that is not UNKNOWN does not depend on what is drawn. -/
theorem getLsbD_pack_of_known {c : Config} (h : c.layout.wf = true) {u : CpuIface} {v : View} {k : Nat} (hk : k < 32)
    (hknown : (∃ f b, pos c.layout v f = some k ∧ eff c u f = .known b) ∨
      ((∀ f, pos c.layout v f ≠ some k) ∧ (c.res0Mode = .hardwired ∨ ∃ w, u.reserved v = .known w))) (d d' : Word) :
    (pack c u d v).getLsbD k = (pack c u d' v).getLsbD k := by
  obtain ⟨f, b, hp, hb⟩ | ⟨hn, hm | ⟨w, hw⟩⟩ := hknown
  · simp only [getLsbD_pack_at h u _ hp, hb, Stored.get_known]
  · simp only [getLsbD_pack_off u _ hk hn, hm]
  · simp only [getLsbD_pack_off u _ hk hn, hw, Stored.get_known]

/-- Settles O24: both reads pack the same copy, with two values drawn; the absent register reads 0 twice. -/
theorem twoReadsReturnTheSameValue : Obligations.TwoReadsReturnTheSameValue := by
  intro s u v hwf hu
  by_cases hv : v = .absent
  · subst hv
    exact ⟨_, _, _, _, exec_rdAbsent s, rfl, exec_rdAbsent _, rfl, rfl, rfl, fun _ _ _ => rfl⟩
  · exact ⟨_, _, _, _, (exec_rdInstr hv s).trans (readView_of_current v hu), rfl,
      (exec_rdInstr hv _).trans (readView_of_current v hu), rfl, rfl, rfl,
      fun k hk hknown => getLsbD_pack_of_known hwf hk hknown _ _⟩

/-- A register copy is determined by its cells, its reserved cells and its inputs. -/
theorem CpuIface.ext_parts {u w : CpuIface} (hcells : ∀ f, u.cells.get f = w.cells.get f)
    (hres : ∀ v, u.reserved v = w.reserved v) (hin : u.inputs = w.inputs) : u = w := by
  have hc := FieldTable.ext_get hcells
  have hns := hres .ns
  have hs := hres .s
  have hone := hres .oneState
  cases u
  cases w
  simp only [CpuIface.reserved] at hc hns hs hone hin
  rw [hc, hns, hs, hone, hin]

/-- The word read from a copy, written through the same view to one that has the same inputs and the same RAO/WI cells,
puts back every known cell the view holds. -/
theorem CpuIface.write_pack_get {c : Config} (h : c.layout.wf = true) {u w : CpuIface} {v : View} {f : Field} {p : Nat}
    {b : Bool} (hp : pos c.layout v f = some p) (hb : eff c u f = .known b) (hin : w.inputs = u.inputs)
    (hw : raowi c u.inputs f = true → w.cells.get f = u.cells.get f) (drawn : Word) :
    (w.write c v (pack c u drawn v)).cells.get f = u.cells.get f := by
  cases hr : raowi c u.inputs f with
  | true => rw [CpuIface.write_get_of_raowi (hin ▸ hr), hw hr]
  | false =>
    rw [CpuIface.write_get, writtenCell_of_not_raowi hp (hin ▸ hr), getLsbD_pack_at h u _ hp, hb, Stored.get_known,
      ← hb, eff_of_not_raowi hr]

/-- The reserved cells of a view, read and written back, are as they were (R30). -/
theorem writtenReserved_pack {c : Config} (h : c.layout.wf = true) {u : CpuIface} {v : View}
    (hok : reservedOk c v (u.reserved v) = true) (hknown : c.res0Mode = .stored → ∃ w, u.reserved v = .known w)
    (drawn : Word) : writtenReserved c (u.reserved v) v (pack c u drawn v) = u.reserved v := by
  cases hm : c.res0Mode with
  | hardwired => exact writtenReserved_of_hardwired hm _ _ _
  | stored =>
    obtain ⟨w, hw⟩ := hknown hm
    have hfree : w &&& mask c.layout v = 0#32 := by simpa [reservedOk, hm, hw] using hok
    rw [writtenReserved_of_stored hm, hw]
    refine congrArg Stored.known (BitVec.eq_of_getLsbD_eq fun k hk => ?_)
    have hbit := congrArg (·.getLsbD k) hfree
    simp only [BitVec.getLsbD_and, BitVec.getLsbD_zero] at hbit
    by_cases hf : ∃ f, pos c.layout v f = some k
    · obtain ⟨f, hp⟩ := hf
      rw [getLsbD_mask_at h hp, Bool.and_true] at hbit
      rw [getLsbD_and_not_mask_at h hp, hbit]
    · have hn : ∀ f, pos c.layout v f ≠ some k := fun f hp => hf ⟨f, hp⟩
      simp only [getLsbD_and_not_mask_off hk hn, getLsbD_pack_off u drawn hk hn, hm, hw, Stored.get_known]

/-- Writing back the word that was read leaves the copy (R44). -/
theorem CpuIface.write_pack {c : Config} (h : c.layout.wf = true) {u : CpuIface} {v : View} (hv : v ≠ .absent)
    (hcells : u.KnownIn c v) (hres : u.ReservedWf c) (hknown : c.res0Mode = .stored → ∃ w, u.reserved v = .known w)
    (drawn : Word) : u.write c v (pack c u drawn v) = u := by
  refine CpuIface.ext_parts (fun f => ?cells) (fun v' => ?reserved) (u.write_inputs _ _ _)
  case cells =>
    cases hp : pos c.layout v f with
    | none => rw [CpuIface.write_get, writtenCell_off hp]
    | some p =>
      obtain ⟨b, hb⟩ := hcells f (by rw [hp]; rfl)
      exact CpuIface.write_pack_get h hp hb rfl (fun _ => rfl) drawn
  case reserved =>
    have hmem : v ∈ [View.ns, View.s, View.oneState] := by cases v <;> simp at hv ⊢
    rw [CpuIface.write_reserved]
    split
    · next hvv =>
      obtain ⟨rfl, -⟩ := hvv
      exact writtenReserved_pack h (hres v' hmem) hknown drawn
    · rfl

/-- Settles O25: the write puts back the copy the read packed; the absent register's accesses change no copy. -/
theorem writingBackTheReadWordChangesNothing : Obligations.WritingBackTheReadWordChangesNothing := by
  intro s u v hinv hu hcells hknown
  by_cases hv : v = .absent
  · subst hv
    exact ⟨_, _, _, exec_rdAbsent s, rfl, exec_wrAbsent _ _, rfl⟩
  · obtain ⟨hwf, -, -, hcopies⟩ := s.inv_iff.1 hinv
    obtain ⟨-, -, -, -, -, hlayout⟩ := s.cfg.wf_iff.1 hwf
    obtain ⟨hlt, hget⟩ := List.getElem?_eq_some_iff.1 hu
    obtain ⟨-, hres⟩ := hcopies u (List.mem_of_getElem? hu)
    refine ⟨_, _, _, (exec_rdInstr hv s).trans (readView_of_current v hu), rfl,
      (exec_wrInstr hv _ _).trans (writeView_of_current v _ hu), ?_⟩
    calc s.cpus.set s.pe (u.write s.cfg v (pack s.cfg u (Config.freeWord s.draws) v))
        = s.cpus.set s.pe u := by rw [CpuIface.write_pack hlayout hv hcells hres hknown]
      _ = s.cpus := by rw [← hget, List.set_getElem_self]

/-- After a write through a view every field of it is known (R91). -/
theorem CpuIface.knownIn_write (c : Config) (u : CpuIface) (v : View) (d : Word) : (u.write c v d).KnownIn c v := by
  intro f hf
  obtain ⟨p, hp⟩ := Option.isSome_iff_exists.1 hf
  exact ⟨_, eff_write_at hp u d⟩

/-- Settles O28: each of the two writes leaves the served copy written through its view. -/
theorem wholeWriteLeavesEveryFieldKnown : Obligations.WholeWriteLeavesEveryFieldKnown := by
  intro s u d hu
  obtain ⟨t, ht, hcur⟩ := exec_wrInstr_current (v := .s) (by decide) d hu
  obtain ⟨t', ht', hcur'⟩ := exec_wrInstr_current (v := .oneState) (by decide) d hu
  exact ⟨⟨t, _, ht, hcur, u.knownIn_write _ _ d⟩, ⟨t', _, ht', hcur', u.knownIn_write _ _ d⟩⟩

/-! ### Conflict C1: the two readings of `FIQ0_RAOWI_SOURCE` -/

/-- Where `DIB = DFB` the reading does not matter to which fields are RAO/WI (R19, R25). -/
theorem raowi_withFiqSource {x : Inputs} (h : x.dib = x.dfb) (c : Config) (q : Fiq0Source) (f : Field) :
    raowi { c with fiq0RaowiSource := q } x f = raowi c x f := by
  have hsource : fiq0Source { c with fiq0RaowiSource := q } x = fiq0Source c x := by
    cases q <;> cases hc : c.fiq0RaowiSource <;> simp [fiq0Source, hc, h]
  cases f
  case fiqBypDisGrp0 => simp only [raowi, dynamicRaowi, hsource]; rfl
  all_goals rfl

section
variable {u : CpuIface} (h : u.inputs.dib = u.inputs.dfb) (c : Config) (q : Fiq0Source)
include h

/-- A read sees the reading only in which fields are RAO/WI. -/
theorem pack_withFiqSource (drawn : Word) (v : View) :
    pack { c with fiq0RaowiSource := q } u drawn v = pack c u drawn v := by
  have heff : ∀ f, eff { c with fiq0RaowiSource := q } u f = eff c u f := fun f => by
    simp only [eff, raowi_withFiqSource h]
  simp only [pack, reservedBits, heff]

/-- A write sees the reading only in which fields are RAO/WI. -/
theorem CpuIface.write_withFiqSource (v : View) (d : Word) :
    u.write { c with fiq0RaowiSource := q } v d = u.write c v d := by
  have hcell : writtenCell { c with fiq0RaowiSource := q } u v d = writtenCell c u v d :=
    funext fun f => by simp only [writtenCell, raowi_withFiqSource h]
  simp only [CpuIface.write, hcell, writtenReserved]

end

/-- Settles O29: an operation packs or writes the served copy, where both see the reading only through `raowi`. -/
theorem fiqSourceReadingsAgreeWhenDibIsDfb : Obligations.FiqSourceReadingsAgreeWhenDibIsDfb := by
  intro s i q t hdib h
  obtain ⟨v, u, rfl, hv, hu, rfl⟩ | ⟨v, d, u, rfl, hv, hu, rfl⟩ | ⟨rfl, rfl⟩ | ⟨d, rfl, rfl⟩ := exec_cases h
  · have hin := hdib u (List.mem_of_getElem? hu)
    rw [exec_rdInstr hv, readView_of_current v (s := s.withFiqSource q) hu, State.withFiqSource,
      pack_withFiqSource hin s.cfg q]
    rfl
  · have hin := hdib u (List.mem_of_getElem? hu)
    rw [exec_wrInstr hv, writeView_of_current v d (s := s.withFiqSource q) hu, State.withFiqSource,
      CpuIface.write_withFiqSource hin s.cfg q]
    rfl
  · rfl
  · rfl

end Sys2Proof.Machine

/-! ### R46, R56, R92: the lines of a read-modify-write -/

namespace Sys2Proof.Machine

/-- Whether an operation of a view can occur does not depend on its direction (R53). -/
theorem opInstr_occursIn (c : Config) (v : View) (op : BusOp) :
    (opInstr v op).occursIn c = (rdInstr v).occursIn c := by
  rw [Instr.occursIn_eq_of_view, opInstr_view]

/-- An access line of a view the configuration has not is presented, and refused (R47, R53; log 30). -/
theorem serveNow_lineAccess_of_not_occursIn {s : State} {p : Nat} {u : CpuIface} {v : View} (hu : s.cpus[p]? = some u)
    (ho : (rdInstr v).occursIn s.cfg = false) (op : BusOp) :
    s.serveNow ⟨p, lineAccess s.cfg v op⟩ =
      .refused (if u.inputs.sre = true ∧ s.cfg.sreAccess = .refuse then .sreEnabled else .viewNotProduced) := by
  have hocc : (opInstr v op).occursIn s.cfg = false := (opInstr_occursIn _ _ _).trans ho
  have hline : lineAccess s.cfg v op = .present (encode (opInstr v op)) := if_neg (by simp [hocc])
  have hdecode : decode (encode (opInstr v op)) = .ok (opInstr v op, []) := by
    simpa using decodeOfEncodeIsTheOperation (opInstr v op) []
  rw [hline, State.serveNow,
    step_present (s := { s with queue := ⟨p, .present (encode (opInstr v op))⟩ :: s.queue }) rfl hu hdecode,
    checkPresented_of_not_occursIn hocc, runAccess_ite_error, apply_ite Host.Outcome.refused]
  rfl

/-- The configuration has the view, and an access of a PE with these inputs is neither refused nor dropped (R47, R51). -/
def Config.Serves (c : Config) (x : Inputs) (v : View) : Prop :=
  c.giccBase % 4 = 0 ∧ v ≠ .absent ∧ (rdInstr v).occursIn c = true ∧ ¬ (x.sre = true ∧ c.sreAccess ≠ .normal)

/-- Then an access line runs the operation of its view. -/
theorem serveNow_lineAccess_of_serves {s : State} {p : Nat} {u : CpuIface} {v : View} (hu : s.cpus[p]? = some u)
    (h : Config.Serves s.cfg u.inputs v) (op : BusOp) :
    s.serveNow ⟨p, lineAccess s.cfg v op⟩ =
      exec (opInstr v op) ({ s with queue := ⟨p, lineAccess s.cfg v op⟩ :: s.queue }.turn p) := by
  obtain ⟨hb, hv, ho, hn⟩ := h
  have hr : ¬ (u.inputs.sre = true ∧ s.cfg.sreAccess = .refuse) := fun h => hn ⟨h.1, by simp [h.2]⟩
  have hraz : ¬ (u.inputs.sre = true ∧ s.cfg.sreAccess = .razWi) := fun h => hn ⟨h.1, by simp [h.2]⟩
  rw [serveNow_lineAccess hu hb hv ((opInstr_occursIn _ _ _).trans ho), if_neg hr, if_neg hraz]

/-- A read line answers the packed word and changes no copy. -/
theorem serveNow_rd {s : State} {p : Nat} {u : CpuIface} {v : View} (hu : s.cpus[p]? = some u)
    (h : Config.Serves s.cfg u.inputs v) :
    ∃ t, s.serveNow ⟨p, lineAccess s.cfg v .read⟩ = .next t ∧ t.cfg = s.cfg ∧ t.cpus = s.cpus ∧
      t.resp = some (pack s.cfg u (Config.freeWord s.draws) v) := by
  have hrun := serveNow_lineAccess_of_serves hu h .read
  obtain ⟨-, hv, -, -⟩ := h
  rw [hrun, opInstr, exec_rdInstr hv]
  exact ⟨_, readView_of_current v hu, rfl, rfl, rfl⟩

/-- A write line writes the copy through its view. -/
theorem serveNow_wr {s : State} {p : Nat} {u : CpuIface} {v : View} (hu : s.cpus[p]? = some u)
    (h : Config.Serves s.cfg u.inputs v) (d : Word) :
    ∃ t, s.serveNow ⟨p, lineAccess s.cfg v (.write d)⟩ = .next t ∧ t.cfg = s.cfg ∧
      t.cpus = s.cpus.set p (u.write s.cfg v d) := by
  have hrun := serveNow_lineAccess_of_serves hu h (.write d)
  obtain ⟨-, hv, -, -⟩ := h
  rw [hrun, opInstr, exec_wrInstr hv]
  exact ⟨_, writeView_of_current v d hu, rfl, rfl⟩

/-- Through `raz_wi` an access line completes and changes no copy (R47). -/
theorem serveNow_lineAccess_of_razWi {s : State} {p : Nat} {u : CpuIface} {v : View} (hu : s.cpus[p]? = some u)
    (hb : s.cfg.giccBase % 4 = 0) (hv : v ≠ .absent) (ho : (rdInstr v).occursIn s.cfg = true)
    (hraz : u.inputs.sre = true ∧ s.cfg.sreAccess = .razWi) (op : BusOp) :
    ∃ t, s.serveNow ⟨p, lineAccess s.cfg v op⟩ = .next t ∧ t.cfg = s.cfg ∧ t.cpus = s.cpus := by
  have hr : ¬ (u.inputs.sre = true ∧ s.cfg.sreAccess = .refuse) := by simp [hraz.2]
  rw [serveNow_lineAccess hu hb hv ((opInstr_occursIn _ _ _).trans ho), if_neg hr, if_pos hraz]
  cases op <;> exact ⟨_, rfl, rfl, rfl⟩

/-! ### R56: a read line and a write line of one view with nothing between them -/

section
variable {s : State} {p : Nat} {v : View} (n : Nat) (d : Source) (x : Vars)

/-- Such a program is refused at its read line where that is refused. -/
theorem runLines_rd_wr_refused {r : Refusal} (h : s.serveNow ⟨p, lineAccess s.cfg v .read⟩ = .refused r) :
    runLines p [.rd v n, .wr v d] x s = .refused r :=
  runProgram_cons_refused h

variable {u : CpuIface} (hu : s.cpus[p]? = some u)
include hu

/-- Through `raz_wi` both lines complete and no copy changes. -/
theorem runLines_rd_wr_of_razWi (hb : s.cfg.giccBase % 4 = 0) (hv : v ≠ .absent)
    (ho : (rdInstr v).occursIn s.cfg = true) (hraz : u.inputs.sre = true ∧ s.cfg.sreAccess = .razWi) :
    ∃ t y, runLines p [.rd v n, .wr v d] x s = .next (t, y) ∧ t.cpus = s.cpus := by
  obtain ⟨t, ht, hcfg, hcpus⟩ := serveNow_lineAccess_of_razWi hu hb hv ho hraz .read
  rw [← hcfg] at hb ho hraz
  rw [← hcpus] at hu
  obtain ⟨t', ht', -, hcpus'⟩ :=
    serveNow_lineAccess_of_razWi hu hb hv ho hraz (.write (d.word ((Line.rd v n).vars x t.resp)))
  exact ⟨t', _, (runProgram_cons_next ht).trans (runProgram_cons_next ht'), hcpus'.trans hcpus⟩

/-- Otherwise the copy is written with what the source makes of the word the read line answered. -/
theorem runLines_rd_wr (h : Config.Serves s.cfg u.inputs v) :
    ∃ t y, runLines p [.rd v n, .wr v d] x s = .next (t, y) ∧
      t.cpus = s.cpus.set p
        (u.write s.cfg v (d.word (setVar x n (pack s.cfg u (Config.freeWord s.draws) v)))) := by
  obtain ⟨t, ht, hcfg, hcpus, hresp⟩ := serveNow_rd hu h
  rw [← hcpus] at hu ⊢
  rw [← hcfg] at h
  obtain ⟨t', ht', -, hcpus'⟩ := serveNow_wr hu h (d.word ((Line.rd v n).vars x t.resp))
  refine ⟨t', _, (runProgram_cons_next ht).trans (runProgram_cons_next ht'), ?_⟩
  rw [hcpus', hcfg, hresp]
  rfl

end

/-- A write keeps every cell its view does not hold or whose field is RAO/WI. -/
theorem CpuIface.write_get_of_kept {c : Config} {u : CpuIface} {v : View} {f : Field}
    (h : pos c.layout v f = none ∨ raowi c u.inputs f = true) (d : Word) :
    (u.write c v d).cells.get f = u.cells.get f := by
  rcases h with hp | hr
  · rw [CpuIface.write_get, writtenCell_off hp]
  · exact CpuIface.write_get_of_raowi hr v d

/-- The bit that a read returns of a field that is not RAO/WI: its cell, drawn if UNKNOWN. -/
theorem getLsbD_pack_of_not_raowi {c : Config} (h : c.layout.wf = true) {u : CpuIface} {v : View} {f : Field} {k : Nat}
    (hp : pos c.layout v f = some k) (hr : raowi c u.inputs f = false) (drawn : Word) :
    (pack c u drawn v).getLsbD k = (u.cells.get f).get (drawn.getLsbD k) := by
  rw [getLsbD_pack_at h u _ hp, eff_of_not_raowi hr]

/-- Settles O26: both programs are a read line and a write line, which are refused, dropped or run alike; run, they
write the word read with the mask's bits set, or cleared. -/
theorem setbAndClrbChangeTheMaskedBits : Obligations.SetbAndClrbChangeTheMaskedBits := by
  intro s p u v n m x hwf hu hv has
  obtain ⟨-, -, -, hb, -, hlayout⟩ := s.cfg.wf_iff.1 hwf
  have hocc : has ↔ (rdInstr v).occursIn s.cfg = true := by
    cases v <;> simp [has, rdInstr, Instr.occursIn] at hv ⊢
  refine ⟨fun hr => ?refuse, fun hr hno => ?noView, fun hhas hs hraz => ?razWi, fun hhas hn => ?run⟩
  case refuse =>
    have hline : s.serveNow ⟨p, lineAccess s.cfg v .read⟩ = .refused .sreEnabled := by
      cases ho : (rdInstr v).occursIn s.cfg with
      | true => rw [serveNow_lineAccess hu hb hv ((opInstr_occursIn _ _ _).trans ho), if_pos hr]
      | false => rw [serveNow_lineAccess_of_not_occursIn hu ho, if_pos hr]
    exact ⟨runLines_rd_wr_refused n _ x hline, runLines_rd_wr_refused n _ x hline⟩
  case noView =>
    have ho : (rdInstr v).occursIn s.cfg = false := Bool.eq_false_iff.2 (mt hocc.2 hno)
    have hline := serveNow_lineAccess_of_not_occursIn hu ho .read
    rw [if_neg hr] at hline
    exact ⟨runLines_rd_wr_refused n _ x hline, runLines_rd_wr_refused n _ x hline⟩
  case razWi =>
    obtain ⟨t, y, ht, hcpus⟩ := runLines_rd_wr_of_razWi n (.varOr n m) x hu hb hv (hocc.1 hhas) ⟨hs, hraz⟩
    obtain ⟨t', y', ht', hcpus'⟩ := runLines_rd_wr_of_razWi n (.varAnd n (~~~m)) x hu hb hv (hocc.1 hhas) ⟨hs, hraz⟩
    exact ⟨t, y, t', y', ht, ht', hcpus, hcpus'⟩
  case run =>
    have hserves : Config.Serves s.cfg u.inputs v := ⟨hb, hv, hocc.1 hhas, hn⟩
    obtain ⟨t, y, ht, hcpus⟩ := runLines_rd_wr n (.varOr n m) x hu hserves
    obtain ⟨t', y', ht', hcpus'⟩ := runLines_rd_wr n (.varAnd n (~~~m)) x hu hserves
    refine ⟨t, y, _, t', y', _, ht, hcpus, ht', hcpus', u.write_inputs _ _ _, u.write_inputs _ _ _, fun f =>
      ⟨fun hkeep => ⟨CpuIface.write_get_of_kept hkeep _, CpuIface.write_get_of_kept hkeep _⟩, fun k hp hr => ?_⟩⟩
    have hk := pos_lt hlayout hp
    have hread := getLsbD_pack_of_not_raowi hlayout hp hr (Config.freeWord s.draws)
    simp only [CpuIface.write_get, writtenCell_of_not_raowi hp hr, Source.word, setVar_same, BitVec.getLsbD_or,
      BitVec.getLsbD_and, BitVec.getLsbD_not, hread, hk, decide_true, Bool.true_and, and_self]

/-! ### R46, R92: a Non-secure write between the two accesses -/

/-- The word read through the Secure view, written back after a write through another, puts back every cell: the Secure
view holds every field. -/
theorem CpuIface.write_pack_s_cells {c : Config} (h : c.layout.wf = true) {u : CpuIface} (hknown : u.KnownIn c .s)
    (v : View) (d drawn : Word) : ((u.write c v d).write c .s (pack c u drawn .s)).cells = u.cells := by
  refine FieldTable.ext_get fun f => ?_
  have hsome : (pos c.layout .s f).isSome = true := by cases f <;> rfl
  obtain ⟨p, hp⟩ := Option.isSome_iff_exists.1 hsome
  obtain ⟨b, hb⟩ := hknown f hsome
  exact CpuIface.write_pack_get h hp hb (u.write_inputs _ _ _) (fun hr => CpuIface.write_get_of_raowi hr v d) drawn

/-- `RD.S`, then `WR.NS`, then `WR.S` of the word `RD.S` returned: the copy read is written through the one view and
then the other. -/
theorem exec_rdS_wrNs_wrS {s : State} {u : CpuIface} (hu : s.current = some u) (d : Word) :
    ∃ t1 t2 t3, exec .rdS s = .next t1 ∧ t1.resp = some (pack s.cfg u (Config.freeWord s.draws) .s) ∧
      exec (.wrNs d) t1 = .next t2 ∧ exec (.wrS (pack s.cfg u (Config.freeWord s.draws) .s)) t2 = .next t3 ∧
      t3.current =
        some ((u.write s.cfg .ns d).write s.cfg .s (pack s.cfg u (Config.freeWord s.draws) .s)) := by
  have hrd := readView_of_current .s hu
  obtain ⟨t2, ht2, hcur2⟩ := exec_wrInstr_current (v := .ns) (by decide) d (s := ((s.answer _).spend.retire)) hu
  obtain ⟨hcfg, -, -, -⟩ := exec_frame ht2
  obtain ⟨t3, ht3, hcur3⟩ := exec_wrInstr_current (v := .s) (by decide) _ hcur2
  rw [hcfg] at hcur3
  exact ⟨_, t2, t3, hrd, rfl, ht2, ht3, hcur3⟩

/-- The same sequence as lines of a program of PE `p`, with the Non-secure bus write an event between them (log 30). -/
theorem runProgram_rdS_wrNs_wrS {s : State} {p : Nat} {u : CpuIface} (hu : s.cpus[p]? = some u)
    (hns : Config.Serves s.cfg u.inputs .ns) (hs : Config.Serves s.cfg u.inputs .s) (n : Nat) (d : Word) (x : Vars) :
    ∃ t y, runProgram p
        [.line (.rd .s n), .other ⟨p, .bus ⟨.write d, s.cfg.giccBase, 4, true⟩⟩, .line (.wr .s (.var n))] x s =
          .next (t, y) ∧
      t.cpus[p]? = some ((u.write s.cfg .ns d).write s.cfg .s (pack s.cfg u (Config.freeWord s.draws) .s)) := by
  obtain ⟨hlt, -⟩ := List.getElem?_eq_some_iff.1 hu
  have hevent : lineAccess s.cfg .ns (.write d) = .bus ⟨.write d, s.cfg.giccBase, 4, true⟩ := by
    obtain ⟨-, hne, hocc, -⟩ := hns
    exact if_pos ⟨hne, hocc⟩
  obtain ⟨t1, ht1, hcfg1, hcpus1, hresp⟩ := serveNow_rd hu hs
  obtain ⟨t2, ht2, hcfg2, hcpus2⟩ := serveNow_wr (s := t1) (hcpus1 ▸ hu) (hcfg1 ▸ hns) d
  rw [hcfg1, hcpus1] at hcpus2
  rw [hcfg1] at hcfg2 ht2
  rw [hevent] at ht2
  have hu2 : t2.cpus[p]? = some (u.write s.cfg .ns d) := by rw [hcpus2, List.getElem?_set_self hlt]
  obtain ⟨hlt2, -⟩ := List.getElem?_eq_some_iff.1 hu2
  have hs2 : Config.Serves t2.cfg (u.write s.cfg .ns d).inputs .s := by rwa [hcfg2, CpuIface.write_inputs]
  obtain ⟨t3, ht3, -, hcpus3⟩ := serveNow_wr hu2 hs2 ((Line.rd .s n).vars x t1.resp n)
  refine ⟨t3, _, (runProgram_cons_next ht1).trans ((runProgram_cons_next ht2).trans (runProgram_cons_next ht3)), ?_⟩
  rw [hcpus3, List.getElem?_set_self hlt2, hcfg2, hresp, Line.vars, setVar_same]

/-- Settles O27: as operations and as lines, the last write is of the word read from the copy before the Non-secure
write, to the copy after it. -/
theorem readModifyWriteUndoesAWriteBetween : Obligations.ReadModifyWriteUndoesAWriteBetween := by
  refine ⟨fun s u d hlayout hu hknown => ?operations, fun s p u n d x hwf hu hknown hl hbanked hsre => ?lines⟩
  case operations =>
    obtain ⟨t1, t2, t3, h1, hr, h2, h3, hcur⟩ := exec_rdS_wrNs_wrS hu d
    exact ⟨t1, _, t2, t3, _, h1, hr, h2, h3, hcur, CpuIface.write_pack_s_cells hlayout hknown _ _ _⟩
  case lines =>
    obtain ⟨-, -, -, hb, -, hlayout⟩ := s.cfg.wf_iff.1 hwf
    have hserves : ∀ v, v = .ns ∨ v = .s → Config.Serves s.cfg u.inputs v := by
      rintro v (rfl | rfl) <;> simp [Config.Serves, hb, rdInstr, Instr.occursIn, hl, hbanked, hsre]
    obtain ⟨t, y, ht, hw⟩ := runProgram_rdS_wrNs_wrS hu (hserves .ns (.inl rfl)) (hserves .s (.inr rfl)) n d x
    exact ⟨t, y, _, ht, hw, CpuIface.write_pack_s_cells hlayout hknown _ _ _⟩

end Sys2Proof.Machine
